-- ==== Sys2Proof/Word.lean ====
section
/-!
DEFINITION. The value types of the block: bytes, 16-bit quantities, channel symbols and the two kinds of sequence.
-/

namespace Sys2Proof

/-- A byte, `u8` (00_scope.md R8). It is also one Reed-Solomon symbol (R6, `SYM_BITS = 8`). -/
abbrev Byte := BitVec 8

/-- An unsigned 16-bit quantity, `u16` (00_scope.md R8). -/
abbrev U16 := BitVec 16

/-- A channel symbol, one half-bit cell on the radio: `true` is 1 (high, carrier present), `false` is 0 (low, carrier
absent) (40_manchester.md R101). -/
abbrev Sym := Bool

/-- A byte sequence (10_state.md R23, 00_scope.md R9). -/
abbrev ByteSeq := List Byte

/-- A channel-symbol sequence, first transmitted symbol first (10_state.md R23, 00_scope.md R9). -/
abbrev SymSeq := List Sym

end Sys2Proof
end

