-- ==== Sys2Proof/Config.lean ====
section
/-!
DEFINITION. The implementation parameters of 00_scope.md R6, fixed when the block is built (70_reset_and_hazards.md
R232), the constants the codecs use, and the one open parameter that a definition of the model reads.
-/

namespace Sys2Proof.Config

/-- `GF_POLY`: the primitive polynomial x^8+x^4+x^3+x^2+1 of GF(2^8) (00_scope.md R6). -/
def gfPoly : BitVec 9 := 0x11D#9

/-- `GF_ALPHA`: the primitive element (00_scope.md R6). -/
def gfAlpha : Byte := 0x02#8

/-- `RS_N`: code-word length in RS symbols (00_scope.md R6). -/
def rsN : Nat := 32

/-- `RS_K`: data symbols per code word (00_scope.md R6). -/
def rsK : Nat := 24

/-- `RS_T`: correctable symbol errors, `(RS_N − RS_K) / 2` (00_scope.md R6). -/
def rsT : Nat := 4

/-- `RS_FCR`: exponent of the first root of the generator (00_scope.md R6). -/
def rsFcr : Nat := 0

/-- `RS_N − RS_K`, the number of parity symbols; it is also the number `2 · RS_T` of the generator's roots
(41_reed_solomon.md R125, R126). -/
def rsParityLen : Nat := rsN - rsK

/-- The generator polynomial's coefficients, highest degree first: `01 FF 0B 51 36 EF AD C8 18`
(41_reed_solomon.md R125). -/
def rsGenerator : ByteSeq := [0x01#8, 0xFF#8, 0x0B#8, 0x51#8, 0x36#8, 0xEF#8, 0xAD#8, 0xC8#8, 0x18#8]

/-- `MAX_PAYLOAD`: the largest payload in bytes (00_scope.md R6). -/
def maxPayload : Nat := 64

/-- `HDR_BYTES`: header length in bytes (00_scope.md R6). -/
def hdrBytes : Nat := 7

/-- `CRC_BYTES`: integrity-field length in bytes (00_scope.md R6). -/
def crcBytes : Nat := 2

/-- `MAX_FRAME = HDR_BYTES + MAX_PAYLOAD + CRC_BYTES` (00_scope.md R6). -/
def maxFrame : Nat := hdrBytes + maxPayload + crcBytes

/-- `MAX_BLOCKS = ceil(MAX_FRAME / RS_K)` (00_scope.md R6). -/
def maxBlocks : Nat := (maxFrame + rsK - 1) / rsK

/-- `IN_BYTES_MAX = MAX_BLOCKS * RS_N`: byte-input buffer capacity (00_scope.md R6). -/
def inBytesMax : Nat := maxBlocks * rsN

/-- `IN_SYMS_MAX = 16 * IN_BYTES_MAX`: channel-symbol input capacity (00_scope.md R6). -/
def inSymsMax : Nat := 16 * inBytesMax

/-- `FEC_IN_MAX = MAX_BLOCKS * RS_K`: largest `FEC.ENC` input (00_scope.md R6). -/
def fecInMax : Nat := maxBlocks * rsK

/-- The CRC-16 generator polynomial x^16+x^12+x^5+1 without its leading term (42_framer.md R164). -/
def crcPoly : U16 := 0x1021#16

/-- The CRC-16 initial value (42_framer.md R164). -/
def crcInit : U16 := 0xFFFF#16

/-- `IRQ_BINDING`, OPEN (00_scope.md R6, 60_exceptions.md R207): whether `rsp_valid` drives an interrupt line. It has no
body, so nothing can be proved of its value (notes/assumptions/5.md). -/
opaque irqBinding : Bool

end Sys2Proof.Config
end

