-- ==== Sys2Proof/Syntax.lean ====
section
/-!
DEFINITION. The records a requester writes (Packet, Request) and the block's ten operations with the operands their
formats name: one constructor of Instr per row of spec/opcode_table.json.
-/

namespace Sys2Proof

/-- A packet (42_framer.md R160). The integrity field is on the wire only (90_conflicts.md C4). `receiverId = 0xFFFF` is
broadcast; the block attaches no rule to it (R173). -/
structure Packet where
  senderId   : U16
  receiverId : U16
  sequence   : Byte
  ack        : Bool
  retry      : Bool
  payload    : ByteSeq
  deriving DecidableEq, Repr

/-- A request record (10_state.md R23): written by the requester at SUBMIT, only read by the block. -/
structure Request where
  op      : Byte
  inBytes : ByteSeq
  inSyms  : SymSeq
  inPkt   : Packet
  outCap  : U16
  deriving DecidableEq, Repr

/-- The three request formats (30_encoding.md R61). -/
inductive Format where
  /-- Byte input: reads `op`, `in_bytes`. -/
  | byteInput
  /-- Symbol input: reads `op`, `in_syms`, and for `MAN.DEC` only `out_cap`. -/
  | symbolInput
  /-- Packet input: reads `op`, `in_pkt`. -/
  | packetInput
  deriving DecidableEq, Repr

/-- The block's operations, each with the operands its format names (30_encoding.md R60, R61). -/
inductive Instr where
  /-- `MAN.ENC`, op 0x01, format B (40_manchester.md R104). -/
  | manEnc (inBytes : ByteSeq)
  /-- `MAN.DEC`, op 0x02, format S (40_manchester.md R106). -/
  | manDec (inSyms : SymSeq) (outCap : U16)
  /-- `RS.ENC`, op 0x11, format B (41_reed_solomon.md R130). -/
  | rsEnc (inBytes : ByteSeq)
  /-- `RS.DEC`, op 0x12, format B (41_reed_solomon.md R131). -/
  | rsDec (inBytes : ByteSeq)
  /-- `FEC.ENC`, op 0x13, format B (41_reed_solomon.md R133). -/
  | fecEnc (inBytes : ByteSeq)
  /-- `FEC.DEC`, op 0x14, format B (41_reed_solomon.md R134). -/
  | fecDec (inBytes : ByteSeq)
  /-- `PF.SER`, op 0x21, format P (42_framer.md R170). -/
  | pfSer (inPkt : Packet)
  /-- `PF.DES`, op 0x22, format B (42_framer.md R171). -/
  | pfDes (inBytes : ByteSeq)
  /-- `TX.FRAME`, op 0x31, format P (43_pipeline.md R190). -/
  | txFrame (inPkt : Packet)
  /-- `RX.FRAME`, op 0x32, format S (43_pipeline.md R191). -/
  | rxFrame (inSyms : SymSeq)
  deriving DecidableEq, Repr

end Sys2Proof
end

