-- ==== Sys2Proof/WellFormed.lean ====
section
/-!
DEFINITION. The checks the spec makes on a request and its operands: which op values name an operation, which packets are
valid, which inputs are within their limits. A request that fails one of them is still executed: the block completes it
with an error status (60_exceptions.md R204), so no meaning assumes well-formedness.
-/

namespace Sys2Proof

/-- The ten op values that name an operation (30_encoding.md R60); every other value is illegal (R64). -/
def legalOps : List Byte :=
  [0x01#8, 0x02#8, 0x11#8, 0x12#8, 0x13#8, 0x14#8, 0x21#8, 0x22#8, 0x31#8, 0x32#8]

/-- The request's op names an operation (30_encoding.md R60, R64). Every value of every other field is admitted
(10_state.md R23). -/
def Request.wellFormed (r : Request) : Bool := legalOps.contains r.op

/-- A packet is valid iff its payload is at most `MAX_PAYLOAD` bytes (42_framer.md R160). -/
def Packet.valid (p : Packet) : Bool := Nat.ble p.payload.length Config.maxPayload

/-- The operand is within the limit its operation has: the input limits of 20_memory.md R42, and a valid packet for the
two packet operations (42_framer.md R170). -/
def Instr.wellFormed : Instr → Bool
  | .manEnc bs   => Nat.ble bs.length Config.inBytesMax
  | .manDec ss _ => Nat.ble ss.length Config.inSymsMax
  | .rsEnc bs    => Nat.ble bs.length Config.inBytesMax
  | .rsDec bs    => Nat.ble bs.length Config.inBytesMax
  | .fecEnc bs   => Nat.ble bs.length Config.fecInMax
  | .fecDec bs   => Nat.ble bs.length Config.inBytesMax
  | .pfSer p     => p.valid
  | .pfDes bs    => Nat.ble bs.length Config.inBytesMax
  | .txFrame p   => p.valid
  | .rxFrame ss  => Nat.ble ss.length Config.inSymsMax

end Sys2Proof
end

