-- ==== Sys2Proof/Decode.lean ====
section
/-!
DEFINITION. The dispatch on the operation code (30_encoding.md R60 to R64), its inverse, and the reading of one
opcode-table word as a request.
-/

namespace Sys2Proof

/-- Why a request decodes to no operation. -/
inductive DecodeError where
  /-- The op value names no operation (30_encoding.md R64). -/
  | illegalOp (op : Byte)
  deriving DecidableEq, Repr

/-- `op[7:4]`, the unit field (30_encoding.md R60): 0 Manchester codec, 1 RS codec, 2 packet framer, 3 pipeline, 4 to 15
none. -/
def opUnit (op : Byte) : BitVec 4 := op.extractLsb' 4 4

/-- `op[3:0]`, the function within the unit (30_encoding.md R60). -/
def opFn (op : Byte) : BitVec 4 := op.extractLsb' 0 4

/-- The operation a request names, with the operands its format reads (30_encoding.md R60, R61, R63). Total: any other op is
rejected by name (R64). -/
def decode (r : Request) : Except DecodeError Instr :=
  match r.op with
  | 0x01#8 => .ok (.manEnc r.inBytes)
  | 0x02#8 => .ok (.manDec r.inSyms r.outCap)
  | 0x11#8 => .ok (.rsEnc r.inBytes)
  | 0x12#8 => .ok (.rsDec r.inBytes)
  | 0x13#8 => .ok (.fecEnc r.inBytes)
  | 0x14#8 => .ok (.fecDec r.inBytes)
  | 0x21#8 => .ok (.pfSer r.inPkt)
  | 0x22#8 => .ok (.pfDes r.inBytes)
  | 0x31#8 => .ok (.txFrame r.inPkt)
  | 0x32#8 => .ok (.rxFrame r.inSyms)
  | _ => .error (.illegalOp r.op)

/-- The operation code of an operation (30_encoding.md R60). -/
def opcode : Instr → Byte
  | .manEnc _   => 0x01#8
  | .manDec _ _ => 0x02#8
  | .rsEnc _    => 0x11#8
  | .rsDec _    => 0x12#8
  | .fecEnc _   => 0x13#8
  | .fecDec _   => 0x14#8
  | .pfSer _    => 0x21#8
  | .pfDes _    => 0x22#8
  | .txFrame _  => 0x31#8
  | .rxFrame _  => 0x32#8

/-- The format of an operation (30_encoding.md R60, R61). -/
def Instr.format : Instr → Format
  | .manEnc _   => .byteInput
  | .manDec _ _ => .symbolInput
  | .rsEnc _    => .byteInput
  | .rsDec _    => .byteInput
  | .fecEnc _   => .byteInput
  | .fecDec _   => .byteInput
  | .pfSer _    => .packetInput
  | .pfDes _    => .byteInput
  | .txFrame _  => .packetInput
  | .rxFrame _  => .symbolInput

/-- A packet with every field zero or empty: what `encode` puts in a packet field that the format does not read. -/
def Packet.blank : Packet :=
  { senderId := 0#16, receiverId := 0#16, sequence := 0#8, ack := false, retry := false, payload := [] }

/-- A request with only its op given; every other field zero or empty. -/
def Request.ofOp (op : Byte) : Request :=
  { op := op, inBytes := [], inSyms := [], inPkt := Packet.blank, outCap := 0#16 }

/-- The request record of an operation (30_encoding.md R60, R61): its op, the fields its format reads, and every field it
ignores zero or empty. -/
def encode (i : Instr) : Request :=
  let r := Request.ofOp (opcode i)
  match i with
  | .manEnc bs     => { r with inBytes := bs }
  | .manDec ss cap => { r with inSyms := ss, outCap := cap }
  | .rsEnc bs      => { r with inBytes := bs }
  | .rsDec bs      => { r with inBytes := bs }
  | .fecEnc bs     => { r with inBytes := bs }
  | .fecDec bs     => { r with inBytes := bs }
  | .pfSer p       => { r with inPkt := p }
  | .pfDes bs      => { r with inBytes := bs }
  | .txFrame p     => { r with inPkt := p }
  | .rxFrame ss    => { r with inSyms := ss }

/-- The request an opcode-table word stands for: its `op` is the word's low eight bits, the only bits a row of the table
has (30_encoding.md R60); the operands are record fields outside the word and are zero or empty. -/
def requestOfTableWord (_nbits w : Nat) : Request := Request.ofOp (BitVec.ofNat 8 w)

/-- The operation the decoder reads from an opcode-table word, none where it rejects. -/
def decodeTableWord (nbits w : Nat) : Option Instr :=
  match decode (requestOfTableWord nbits w) with
  | .ok i => some i
  | .error _ => none

end Sys2Proof
end

