-- ==== Sys2Proof/Machine/State.lean ====
section
/-!
DEFINITION. The block's state as the spec gives it (10_state.md R21, R24), the reasons a step can stop, and the state
after reset (10_state.md R32).
-/

namespace Sys2Proof.Machine

open Sys2Proof

/-- The status values a response can hold (60_exceptions.md R200); their codes are `Status.code` in Flags.lean. -/
inductive Status where
  | ok
  | manInvalidTransition
  | manBufferTooSmall
  | manInvalidLength
  | fecUncorrectable
  | fecInvalidLength
  | framePayloadTooLarge
  | frameTruncated
  | frameIntegrityMismatch
  | frameMalformed
  | illegalOp
  | inputTooLong
  deriving DecidableEq, Repr

/-- The phase of the port (10_state.md R21). -/
inductive Phase where
  | idle
  | busy
  deriving DecidableEq, Repr

/-- A response record (10_state.md R24), written by the block whole at COMPLETE. -/
structure Response where
  status    : Byte
  outBytes  : ByteSeq
  outSyms   : SymSeq
  outPkt    : Option Packet
  corrected : U16
  deriving DecidableEq, Repr

/-- One turn of an agent (10_state.md section 4): the MODEL's own, plain data that says which agent moves next
(DESIGN CHOICE, safe for statements over every list of turns, notes/assumptions/1.md). -/
inductive Turn where
  /-- The requester submits `r` (10_state.md R26); while the block is BUSY it holds, and the turn stays. -/
  | submit (r : Request)
  /-- The requester reads the response (10_state.md R28); while the block is BUSY it holds, and the turn stays. -/
  | read
  /-- The block is given the turn: it COMPLETEs if it is BUSY (10_state.md R27) and has no step otherwise. It is needed
  only to let COMPLETE come before a reset that is next in the list. -/
  | complete
  /-- The external reset event (70_reset_and_hazards.md R230). -/
  | reset
  deriving DecidableEq, Repr

/-- What happens at a step, chosen from the phase and the next turn by `State.nextAction` (Ops.lean). -/
inductive Action where
  /-- No agent has an enabled step. -/
  | wait
  /-- The requester's SUBMIT. -/
  | submit (r : Request)
  /-- The requester's READ. -/
  | read
  /-- The block's COMPLETE. -/
  | complete
  /-- The reset event. -/
  | reset
  deriving DecidableEq, Repr

/-- Why a step stops with a fault. -/
inductive Fault where
  /-- A READ while IDLE with no response present (10_state.md R28): raised by the requester's READ. The spec itself asks for
  this fault, so it is exact; a run that would go on after it is not shown (safe). -/
  | readNoResponse
  /-- A `MemRead` past the end of an input (20_memory.md R41): raised by an operation body. By the rules it never occurs
  (safe). -/
  | readPastEnd
  /-- An evaluation of `ginv(0)` (41_reed_solomon.md R123, 93_implementation_defined.md section 2): raised by a division in
  the field. By the rules it never occurs (safe). -/
  | inverseOfZero
  /-- An evaluation of `log(0)` (41_reed_solomon.md R122, 93_implementation_defined.md section 2): raised by the logarithm.
  No operation evaluates a logarithm (safe). -/
  | logOfZero
  /-- The phase is BUSY and no request is latched: not a state of the machine, since the request is present iff the phase
  is BUSY (10_state.md R21). Raised by the block's COMPLETE; no run from a state that keeps R21 reaches it (safe). -/
  | busyWithoutRequest
  deriving DecidableEq, Repr

/-- Why an operation has no meaning. -/
inductive Refusal where
  /-- An arm of `exec` that is not modelled yet; no arm of this model answers it (safe). -/
  | notModelled (mnemonic : String)
  deriving DecidableEq, Repr

/-- How an operation body ends before its result: with an error status (`fail` of 00_scope.md R10), or at a defect of the
transcription that the spec asks to be a fault. -/
inductive Stop where
  | status (c : Status)
  | fault (f : Fault)
  deriving DecidableEq, Repr

/-- The state of the machine. `phase`, `req` and `rsp` are the architectural triple of 10_state.md R21; `turns` and
`lastRead` are the MODEL's own fields for the agents outside the block. -/
structure State where
  /-- IDLE or BUSY (10_state.md R21). -/
  phase    : Phase
  /-- The latched request, present iff BUSY (10_state.md R21). -/
  req      : Option Request
  /-- The last response, absent until the first completion (10_state.md R21). -/
  rsp      : Option Response
  /-- The turns of the agents not yet taken, next first (the model's own, notes/assumptions/1.md). -/
  turns    : List Turn
  /-- What the requester's last READ returned, held on the requester's side (the model's own, notes/assumptions/2.md). -/
  lastRead : Option Response
  deriving DecidableEq, Repr

/-- The machine right after reset (10_state.md R32, 70_reset_and_hazards.md R230): IDLE, no request, no response. No turn is
given and nothing has been read: DESIGN CHOICE, unsafe for a claim that rests on either, notes/assumptions/1.md and 2.md. -/
def State.reset : State :=
  { phase := .idle, req := none, rsp := none, turns := [], lastRead := none }

end Sys2Proof.Machine
end

