-- ==== Sys2Proof/Machine/Flags.lean ====
section
/-!
DEFINITION. The block's status indications (10_state.md R25), the interrupt line (60_exceptions.md R207) and the numeric
codes of the status values (60_exceptions.md R200).
-/

namespace Sys2Proof.Machine

open Sys2Proof

/-- The `u8` code of a status (60_exceptions.md R200). -/
def Status.code : Status → Byte
  | .ok                     => 0x00#8
  | .manInvalidTransition   => 0x01#8
  | .manBufferTooSmall      => 0x02#8
  | .manInvalidLength       => 0x03#8
  | .fecUncorrectable       => 0x10#8
  | .fecInvalidLength       => 0x11#8
  | .framePayloadTooLarge   => 0x20#8
  | .frameTruncated         => 0x21#8
  | .frameIntegrityMismatch => 0x22#8
  | .frameMalformed         => 0x23#8
  | .illegalOp              => 0xF0#8
  | .inputTooLong           => 0xF1#8

/-- `busy`: `phase = BUSY` (10_state.md R25). -/
def State.busy (s : State) : Bool :=
  match s.phase with
  | .idle => false
  | .busy => true

/-- `rsp_valid`: `rsp != none` (10_state.md R25). -/
def State.rspValid (s : State) : Bool := s.rsp.isSome

/-- `rsp.status`, no value while no response is present (10_state.md R25). -/
def State.rspStatus (s : State) : Option Byte := s.rsp.map Response.status

/-- `rsp.corrected`, no value while no response is present (10_state.md R25). -/
def State.rspCorrected (s : State) : Option U16 := s.rsp.map Response.corrected

/-- The interrupt line a platform may wire to `rsp_valid`: it carries no information beyond `rsp_valid`, and whether it is
wired is the open parameter `IRQ_BINDING` (60_exceptions.md R207, notes/assumptions/5.md). -/
def State.irqLine (s : State) : Bool := Config.irqBinding && s.rspValid

end Sys2Proof.Machine
end

