-- ==== Sys2Proof/Machine/Operands.lean ====
section
/-!
DEFINITION. How an operation body reads its input: the input limits, the read primitive, 16-bit fields from and to bytes,
and the packed form of channel symbols (20_memory.md R41 to R44, 30_encoding.md R62).
-/

namespace Sys2Proof.Machine

open Sys2Proof

/-- `fail(CODE)` (00_scope.md R10): end the operation at once with a status and no output. -/
def failWith {α : Type} (c : Status) : Except Stop α := .error (.status c)

/-- `if bad then fail(CODE)`: one check of an operation body. -/
def failIf (bad : Bool) (c : Status) : Except Stop Unit :=
  match bad with
  | true => failWith c
  | false => .ok ()

/-- The input-length limit every operation checks first (20_memory.md R42, 30_encoding.md R65). -/
def checkLimit (len limit : Nat) : Except Stop Unit := failIf (Nat.blt limit len) .inputTooLong

/-- `MemRead(i, n) = in[i .. i+n)`, which requires `i + n <= len(in)`; a read past the end faults (20_memory.md R41). -/
def memRead {α : Type} (input : List α) (i n : Nat) : Except Stop (List α) :=
  match Nat.ble (i + n) input.length with
  | true => .ok ((input.drop i).take n)
  | false => .error (.fault .readPastEnd)

/-- `MemRead(i, 1)` as one element (20_memory.md R41). -/
def memReadOne {α : Type} (input : List α) (i : Nat) : Except Stop α :=
  match input[i]? with
  | some x => .ok x
  | none => .error (.fault .readPastEnd)

/-- Bits `[15:8]` of a `u16`, the byte at the lower offset (20_memory.md R43). -/
def u16Hi (v : U16) : Byte := v.extractLsb' 8 8

/-- Bits `[7:0]` of a `u16`, the byte at the higher offset (20_memory.md R43). -/
def u16Lo (v : U16) : Byte := v.extractLsb' 0 8

/-- The `u16` of two bytes, big-endian (20_memory.md R43). -/
def u16Of (hi lo : Byte) : U16 := (hi.zeroExtend 16 <<< 8) ||| lo.zeroExtend 16

/-- The eight bits of a byte, bit 7 first (20_memory.md R44). -/
def bitsMsbFirst (b : Byte) : List Bool :=
  [b.getLsbD 7, b.getLsbD 6, b.getLsbD 5, b.getLsbD 4, b.getLsbD 3, b.getLsbD 2, b.getLsbD 1, b.getLsbD 0]

/-- The byte whose bits, bit 7 first, are appended to the bits already in `v`. -/
def byteOfBits (v : Byte) : List Bool → Byte
  | [] => v
  | bit :: rest => byteOfBits ((v <<< 1) ||| (bif bit then 1#8 else 0#8)) rest

/-- `unpack`: channel symbols from packed bytes, bits 7 down to 0 of each byte (20_memory.md R44). -/
def unpackSyms : ByteSeq → SymSeq
  | [] => []
  | b :: rest => bitsMsbFirst b ++ unpackSyms rest

/-- `pack`: eight channel symbols per byte, the first in bit 7; it requires a length that is a multiple of 8 and has no
value for any other (20_memory.md R44). -/
def packSyms : SymSeq → Option ByteSeq
  | [] => some []
  | a :: b :: c :: d :: e :: f :: g :: h :: rest => (packSyms rest).map (byteOfBits 0#8 [a, b, c, d, e, f, g, h] :: ·)
  | _ => none

end Sys2Proof.Machine
end

