-- ==== Sys2Proof/Machine/Ops.lean ====
section
/-!
DEFINITION. The shared operations: building a response, the failure response, the steps of the port's protocol
(10_state.md R26 to R28, 70_reset_and_hazards.md R230), and who moves next. This block has no trap: an error is an ordinary
completion with an error status (60_exceptions.md R205), so `Response.fail` and `State.complete` stand where another
machine takes an exception, and there is no return from one (R206).
-/

namespace Sys2Proof.Machine

open Sys2Proof

/-- A response with a status and every output field at its "none" value (10_state.md R24). -/
def Response.empty (c : Status) : Response :=
  { status := c.code, outBytes := [], outSyms := [], outPkt := none, corrected := 0#16 }

/-- The response of `fail(CODE)` (60_exceptions.md R202). -/
def Response.fail (c : Status) : Response := Response.empty c

/-- The response of `ok(out_bytes)`; `corrected` is 0 (10_state.md R24). -/
def Response.okBytes (bs : ByteSeq) : Response := { Response.empty .ok with outBytes := bs }

/-- The response of `ok(out_bytes, corrected)` (10_state.md R24, 92_eei_decisions.md D44). -/
def Response.okDecoded (bs : ByteSeq) (corrected : Nat) : Response :=
  { Response.empty .ok with outBytes := bs, corrected := BitVec.ofNat 16 corrected }

/-- The response of `ok(out_syms)` (10_state.md R24). -/
def Response.okSyms (ss : SymSeq) : Response := { Response.empty .ok with outSyms := ss }

/-- The response of `ok(out_pkt, corrected)` (10_state.md R24). -/
def Response.okPacket (p : Packet) (corrected : Nat) : Response :=
  { Response.empty .ok with outPkt := some p, corrected := BitVec.ofNat 16 corrected }

/-- The effect of SUBMIT: the request is latched by value, the old response is cleared, the phase becomes BUSY
(10_state.md R26). -/
def State.latch (s : State) (r : Request) : State :=
  { s with phase := .busy, req := some r, rsp := none }

/-- The effect of COMPLETE with response `x`: the response appears whole, the request is dropped, the phase becomes IDLE
(10_state.md R27). -/
def State.complete (s : State) (x : Response) : State :=
  { s with phase := .idle, req := none, rsp := some x }

/-- The effect of reset: IDLE, no request, no response (70_reset_and_hazards.md R230). -/
def State.clear (s : State) : State :=
  { s with phase := .idle, req := none, rsp := none }

/-- The next turn is taken off the list. -/
def State.dropTurn (s : State) : State := { s with turns := s.turns.tail }

/-- Before the block moves, or when nothing is enabled: a turn that was the block's own is used up, a requester's turn is
held (10_state.md R26, R28; 70_reset_and_hazards.md R240). -/
def State.passTurn (s : State) : State :=
  match s.turns with
  | .complete :: _ => s.dropTurn
  | _ => s

/-- Who moves next. A reset in turn takes effect in either phase (70_reset_and_hazards.md R230). While BUSY the requester
holds and the block completes (R240, R241). While IDLE the requester submits or reads (10_state.md R26, R28) or, with no
turn of its own, the block waits (10_state.md R22). DESIGN CHOICE: COMPLETE comes at the block's next turn, unsafe for a
claim that counts steps (notes/assumptions/6.md). -/
def State.nextAction (s : State) : Action :=
  match s.turns, s.phase with
  | .reset :: _, _ => .reset
  | _, .busy => .complete
  | .submit r :: _, .idle => .submit r
  | .read :: _, .idle => .read
  | .complete :: _, .idle => .wait
  | [], .idle => .wait

/-- The requester's SUBMIT turn (10_state.md R26). -/
def State.takeSubmit (s : State) (r : Request) : State := s.dropTurn.latch r

/-- The reset turn (70_reset_and_hazards.md R230). -/
def State.takeReset (s : State) : State := s.dropTurn.clear

/-- The requester's READ turn (10_state.md R28): it returns the response and changes nothing in the block, and faults when
there is none. -/
def State.takeRead (s : State) : Host.Outcome State Fault Refusal :=
  match s.rsp with
  | some x => .next { s.dropTurn with lastRead := some x }
  | none => .fault .readNoResponse

/-- COMPLETE with the result of an operation body: its response, the failure response of an error status (60_exceptions.md
R202, R205), or the fault of a defect. -/
def finish (result : Except Stop Response) (s : State) : Host.Outcome State Fault Refusal :=
  match result with
  | .ok x => .next (s.complete x)
  | .error (.status c) => .next (s.complete (Response.fail c))
  | .error (.fault f) => .fault f

/-- COMPLETE of a request whose op names no operation: status ILLEGAL_OP and no output (30_encoding.md R64). -/
def finishIllegal (s : State) : Host.Outcome State Fault Refusal := .next (s.complete (Response.fail .illegalOp))

/-- The request of an opcode-table word latched as SUBMIT latches one (10_state.md R26), with the block made the next to
move: a reset that is next in the list is made to come after. -/
def State.latchTableWord (s : State) (nbits w : Nat) : State :=
  let s' := s.latch (requestOfTableWord nbits w)
  match s.turns with
  | .reset :: _ => { s' with turns := .complete :: s.turns }
  | _ => s'

end Sys2Proof.Machine
end

