-- ==== Sys2Proof/Machine/Framer.lean ====
section
/-!
DEFINITION. The packet framer: PF.SER and PF.DES (42_framer.md).
-/

namespace Sys2Proof.Machine

open Sys2Proof

/-- The flags byte: ACK is bit 0, RETRY bit 1, bits 7:2 are written 0 (42_framer.md R162). -/
def flagsByte (p : Packet) : Byte :=
  (bif p.ack then 0x01#8 else 0x00#8) ||| (bif p.retry then 0x02#8 else 0x00#8)

/-- One of the eight shifts of a CRC byte (42_framer.md R164). -/
def crcShift (crc : U16) : U16 :=
  bif crc.getLsbD 15 then (crc <<< 1) ^^^ Config.crcPoly else crc <<< 1

/-- `n` shifts (42_framer.md R164). -/
def crcShifts : Nat → U16 → U16
  | 0, crc => crc
  | n + 1, crc => crcShifts n (crcShift crc)

/-- One byte into the CRC (42_framer.md R164). -/
def crcByte (crc : U16) (b : Byte) : U16 := crcShifts 8 (crc ^^^ (b.zeroExtend 16 <<< 8))

/-- `crc16` (42_framer.md R164). -/
def crc16 (bs : ByteSeq) : U16 := bs.foldl crcByte Config.crcInit

/-- The header and payload of a packet's frame: the bytes the integrity field covers (42_framer.md R161, R165, R170). -/
def frameBody (p : Packet) : ByteSeq :=
  [u16Hi p.senderId, u16Lo p.senderId, u16Hi p.receiverId, u16Lo p.receiverId, p.sequence, flagsByte p,
   BitVec.ofNat 8 p.payload.length] ++ p.payload

/-- The frame of a packet: header, payload, integrity field, big-endian (42_framer.md R161, R165, R170). -/
def frameOf (p : Packet) : ByteSeq :=
  let f := frameBody p
  f ++ [u16Hi (crc16 f), u16Lo (crc16 f)]

/-- `PF_SER` (42_framer.md R170). -/
def pfSerOp (p : Packet) : Except Stop ByteSeq := do
  failIf (Nat.blt Config.maxPayload p.payload.length) .framePayloadTooLarge
  return frameOf p

/-- `PF_DES` (42_framer.md R171), the checks in its order. Bytes after the frame are ignored. -/
def pfDesOp (b : ByteSeq) : Except Stop Packet := do
  checkLimit b.length Config.inBytesMax
  failIf (Nat.blt b.length (Config.hdrBytes + Config.crcBytes)) .frameTruncated
  let lenByte ← memReadOne b 6
  let len := lenByte.toNat
  failIf (Nat.blt Config.maxPayload len) .frameMalformed
  failIf (Nat.blt b.length (Config.hdrBytes + Config.crcBytes + len)) .frameTruncated
  let body ← memRead b 0 (Config.hdrBytes + len)
  let crcHi ← memReadOne b (Config.hdrBytes + len)
  let crcLo ← memReadOne b (Config.hdrBytes + len + 1)
  failIf (crc16 body != u16Of crcHi crcLo) .frameIntegrityMismatch
  let flags ← memReadOne b 5
  failIf (flags.extractLsb' 2 6 != 0#6) .frameMalformed
  let b0 ← memReadOne b 0
  let b1 ← memReadOne b 1
  let b2 ← memReadOne b 2
  let b3 ← memReadOne b 3
  let b4 ← memReadOne b 4
  let payload ← memRead b Config.hdrBytes len
  return { senderId := u16Of b0 b1, receiverId := u16Of b2 b3, sequence := b4,
           ack := flags.getLsbD 0, retry := flags.getLsbD 1, payload := payload }

/-- The response of a deserialised packet; `corrected` is 0 (42_framer.md R171). -/
def packetResponse (p : Packet) : Response := Response.okPacket p 0

/-- `PF.SER` (42_framer.md R170). -/
def execPfSer (inPkt : Packet) (s : State) : Host.Outcome State Fault Refusal :=
  finish ((pfSerOp inPkt).map Response.okBytes) s

/-- `PF.DES` (42_framer.md R171). -/
def execPfDes (inBytes : ByteSeq) (s : State) : Host.Outcome State Fault Refusal :=
  finish ((pfDesOp inBytes).map packetResponse) s

end Sys2Proof.Machine
end

