-- ==== Sys2Proof/Machine/Manchester.lean ====
section
/-!
DEFINITION. The Manchester line codec: MAN.ENC and MAN.DEC (40_manchester.md).
-/

namespace Sys2Proof.Machine

open Sys2Proof

/-- `man_pair`: 1 is sent high then low, 0 low then high (40_manchester.md R100, R103). -/
def manPair (bit : Bool) : SymSeq :=
  match bit with
  | true => [true, false]
  | false => [false, true]

/-- The pairs of a list of bits, in order. -/
def manPairs : List Bool → SymSeq
  | [] => []
  | bit :: rest => manPair bit ++ manPairs rest

/-- `man_byte`: the pairs of bits 7 down to 0 (40_manchester.md R102, R103). -/
def manByte (b : Byte) : SymSeq := manPairs (bitsMsbFirst b)

/-- `man_encode`: the bytes in order (40_manchester.md R103). -/
def manEncode : ByteSeq → SymSeq
  | [] => []
  | b :: rest => manByte b ++ manEncode rest

/-- `pair_bit`: the bit of a pair, none for the illegal pairs (0,0) and (1,1) (40_manchester.md R100, R103). -/
def pairBit (s0 s1 : Sym) : Option Bool :=
  match s0, s1 with
  | true, false => some true
  | false, true => some false
  | _, _ => none

/-- The bits of consecutive pairs, each by `pairBit` alone (40_manchester.md R105); an illegal pair fails the whole
operation (R106). -/
def pairBits : SymSeq → Except Stop (List Bool)
  | [] => .ok []
  | s0 :: s1 :: rest =>
    match pairBit s0 s1 with
    | none => failWith .manInvalidTransition
    | some bit => do
      let bits ← pairBits rest
      return bit :: bits
  | [_] => .error (.fault .readPastEnd)

/-- The loop of MAN.DEC: `n` bytes from 16 symbols each, first pair in bit 7 (40_manchester.md R106). -/
def manDecodeBytes : Nat → SymSeq → Except Stop ByteSeq
  | 0, _ => .ok []
  | n + 1, s => do
    let cell ← memRead s 0 16
    let bits ← pairBits cell
    let rest ← manDecodeBytes n (s.drop 16)
    return byteOfBits 0#8 bits :: rest

/-- `MAN_ENC` (40_manchester.md R104). -/
def manEncOp (bs : ByteSeq) : Except Stop SymSeq := do
  checkLimit bs.length Config.inBytesMax
  return manEncode bs

/-- `MAN_DEC` (40_manchester.md R106): length, capacity, then transitions. -/
def manDecOp (s : SymSeq) (cap : U16) : Except Stop ByteSeq := do
  checkLimit s.length Config.inSymsMax
  failIf (s.length % 16 != 0) .manInvalidLength
  let nbytes := s.length / 16
  failIf (Nat.blt cap.toNat nbytes) .manBufferTooSmall
  manDecodeBytes nbytes s

/-- `MAN.ENC` (40_manchester.md R104). -/
def execManEnc (inBytes : ByteSeq) (s : State) : Host.Outcome State Fault Refusal :=
  finish ((manEncOp inBytes).map Response.okSyms) s

/-- `MAN.DEC` (40_manchester.md R106). -/
def execManDec (inSyms : SymSeq) (outCap : U16) (s : State) : Host.Outcome State Fault Refusal :=
  finish ((manDecOp inSyms outCap).map Response.okBytes) s

end Sys2Proof.Machine
end

