-- ==== Sys2Proof/Machine/Galois.lean ====
section
/-!
DEFINITION. Arithmetic of GF(2^8) and polynomials over it (41_reed_solomon.md R120 to R124).
-/

namespace Sys2Proof.Machine

open Sys2Proof

/-- `gadd`, addition and subtraction (41_reed_solomon.md R120). -/
def gadd (a b : Byte) : Byte := a ^^^ b

/-- `a <- a << 1; if a[8] = 1 then a <- a ⊕ 0x11D`, as a byte: the bit shifted out is bit 7, and what stays of
`GF_POLY` is its low eight bits (41_reed_solomon.md R121). -/
def gshift (a : Byte) : Byte :=
  bif a.getLsbD 7 then (a <<< 1) ^^^ Config.gfPoly.setWidth 8 else a <<< 1

/-- The loop of `gmul`, with the product so far in `r` (41_reed_solomon.md R121). -/
def gmulLoop : Nat → Byte → Byte → Byte → Byte
  | 0, _, _, r => r
  | n + 1, a, b, r => gmulLoop n (gshift a) (b >>> 1) (bif b.getLsbD 0 then r ^^^ a else r)

/-- `gmul`: polynomial multiplication modulo `GF_POLY` (41_reed_solomon.md R121). -/
def gmul (a b : Byte) : Byte := gmulLoop 8 a b 0#8

/-- `gpow` (41_reed_solomon.md R123). -/
def gpow (a : Byte) : Nat → Byte
  | 0 => 1#8
  | e + 1 => gmul a (gpow a e)

/-- `ginv(a) = gpow(a, 254)` for `a != 0`; `ginv(0)` is undefined and evaluating it faults (41_reed_solomon.md R123,
93_implementation_defined.md section 2). -/
def ginv (a : Byte) : Except Stop Byte :=
  match a == 0#8 with
  | true => .error (.fault .inverseOfZero)
  | false => .ok (gpow a 254)

/-- Division `a / b = gmul(a, ginv(b))` for `b != 0` (41_reed_solomon.md R123). -/
def gdiv (a b : Byte) : Except Stop Byte := do
  let i ← ginv b
  return gmul a i

/-- `exp(i) = α^(i mod 255)` (41_reed_solomon.md R122). -/
def gexp (i : Nat) : Byte := gpow Config.gfAlpha (i % 255)

/-- The first `i`, counting from `i`, with `x · α^(i − i₀) = a`, within `n` trials. -/
def glogFrom (a : Byte) : Nat → Nat → Byte → Option Nat
  | 0, _, _ => none
  | n + 1, i, x =>
    match x == a with
    | true => some i
    | false => glogFrom a n (i + 1) (gmul Config.gfAlpha x)

/-- `log(a)`, the unique `i` in 0..254 with `exp(i) = a`, for `a != 0`; `log(0)` is undefined and evaluating it faults
(41_reed_solomon.md R122, 93_implementation_defined.md section 2). -/
def glog (a : Byte) : Except Stop Nat :=
  match glogFrom a 255 0 1#8 with
  | some i => .ok i
  | none => .error (.fault .logOfZero)

/-- The value at `x` of the polynomial whose coefficients are `c`, highest degree first (41_reed_solomon.md R124). -/
def gevalHigh (c : ByteSeq) (x : Byte) : Byte := c.foldl (fun acc b => gadd (gmul x acc) b) 0#8

/-- The value at `x` of the polynomial whose coefficients are `c`, lowest degree first. -/
def gevalLow (c : ByteSeq) (x : Byte) : Byte := c.foldr (fun b acc => gadd b (gmul x acc)) 0#8

/-- The sum of the products of corresponding elements. -/
def gdot : ByteSeq → ByteSeq → Byte
  | a :: as, b :: bs => gadd (gmul a b) (gdot as bs)
  | _, _ => 0#8

/-- The first `n` powers of `α` from `x` on, prepended to `acc` in falling order. -/
def alphaPowersDown : Nat → Byte → ByteSeq → ByteSeq
  | 0, _, acc => acc
  | n + 1, x, acc => alphaPowersDown n (gmul Config.gfAlpha x) (x :: acc)

end Sys2Proof.Machine
end

