-- ==== Sys2Proof/Machine/ReedSolomon.lean ====
section
/-!
DEFINITION. The Reed-Solomon code RS(32,24) and the operations RS.ENC, RS.DEC, FEC.ENC, FEC.DEC (41_reed_solomon.md).
-/

namespace Sys2Proof.Machine

open Sys2Proof

/-- `rep(v, m)` (00_scope.md R9). -/
def rep {α : Type} (v : α) (m : Nat) : List α := List.replicate m v

/-- `w` with the elements of `e` added to its first elements. -/
def xorInto : ByteSeq → ByteSeq → ByteSeq
  | w :: ws, e :: es => gadd w e :: xorInto ws es
  | ws, _ => ws

/-- The first `k` rounds of the long division by the generator: the leading coefficient `f` leaves, and the rest of the
generator times `f` is added to what follows (41_reed_solomon.md R127). -/
def rsDivide : Nat → ByteSeq → ByteSeq
  | 0, w => w
  | _ + 1, [] => []
  | k + 1, f :: w =>
    match f == 0#8 with
    | true => rsDivide k w
    | false => rsDivide k (xorInto w (Config.rsGenerator.tail.map (fun g => gmul g f)))

/-- `rs_parity`: the remainder of `d(x) · x^(RS_N − RS_K)` by `g(x)`, highest degree first (41_reed_solomon.md R126,
R127). -/
def rsParity (d : ByteSeq) : ByteSeq := rsDivide Config.rsK (d ++ rep 0#8 Config.rsParityLen)

/-- `rs_encode`: the data, then the parity (41_reed_solomon.md R126). -/
def rsEncode (d : ByteSeq) : ByteSeq := d ++ rsParity d

/-- The syndromes `S_j = c(α^j)` for `j` in `0 .. 2·RS_T` (41_reed_solomon.md R126, R137). -/
def syndromes (c : ByteSeq) : ByteSeq :=
  (List.range Config.rsParityLen).map (fun j => gevalHigh c (gexp (Config.rsFcr + j)))

/-- Membership of the code `C`: `RS_N` bytes whose syndromes are all zero (41_reed_solomon.md R126). -/
def isCodeword (c : ByteSeq) : Bool :=
  c.length == Config.rsN && (syndromes c).all (fun x => x == 0#8)

/-- `dist`: the number of positions at which two sequences differ (41_reed_solomon.md R128). -/
def dist : ByteSeq → ByteSeq → Nat
  | a :: as, b :: bs => (bif a == b then 0 else 1) + dist as bs
  | _, _ => 0

/-! ### A bounded-distance decoder

41_reed_solomon.md R129 fixes the result, R137 leaves the algorithm open (DESIGN CHOICE, notes/assumptions/4.md: unsafe
only if it missed a code word within `RS_T` symbols). This one finds a polynomial whose roots take in every error position,
solves for the error values there, and answers only what it has checked to be a code word within `RS_T` symbols. -/

/-- `X_i = α^(31 − i)`, the locators of positions `0 .. RS_N` in order (41_reed_solomon.md R137). -/
def locators : ByteSeq := alphaPowersDown Config.rsN 1#8 []

/-- The vectors of `basis` that meet one more linear equation `row`: those that meet it stay, the first that does not is
used to mend every later one and leaves. -/
def eliminate (row : ByteSeq) : List ByteSeq → List ByteSeq
  | [] => []
  | b :: rest =>
    let v := gdot row b
    match v == 0#8 with
    | true => b :: eliminate row rest
    | false => rest.map (fun c => xorInto (c.map (gmul v)) (b.map (gmul (gdot row c))))

/-- The unit vectors of length `RS_T + 1`. -/
def unitVectors : List ByteSeq :=
  (List.range (Config.rsT + 1)).map (fun i => rep 0#8 i ++ [1#8] ++ rep 0#8 (Config.rsT - i))

/-- The coefficients, lowest degree first, of a nonzero polynomial `Λ` of degree at most `RS_T` with
`Σ_j Λ_j · S_(k+j) = 0` for `k` in `0 .. RS_T`: every error position's locator is a root of it when there are at most
`RS_T` errors. -/
def errorLocator (syn : ByteSeq) : ByteSeq :=
  ((List.range Config.rsT).foldl (fun basis k => eliminate ((syn.drop k).take (Config.rsT + 1)) basis)
    unitVectors).headD []

/-- The sequence `S_(k+1) − X · S_k`: what an error at locator `X` adds to the sequence is taken out, what one at `Y` adds
is scaled by `Y − X`. -/
def annihilate (x : Byte) : ByteSeq → ByteSeq
  | a :: b :: rest => gadd b (gmul x a) :: annihilate x (b :: rest)
  | _ => []

/-- The value of the error at locator `x`, the errors being at the locators `xs`: all other locators are taken out of the
syndromes, and the scaling is divided out. -/
def errorValue (syn xs : ByteSeq) (x : Byte) : Except Stop Byte :=
  let others := xs.filter (fun y => y != x)
  let scaled := (others.foldl (fun s y => annihilate y s) syn).headD 0#8
  let scale := others.foldl (fun d y => gmul d (gadd x y)) 1#8
  gdiv scaled scale

/-- The error of every position: zero off the locators `xs`. -/
def errorPattern (syn xs : ByteSeq) : ByteSeq → Except Stop ByteSeq
  | [] => .ok []
  | x :: rest => do
    let e ← match xs.contains x with
      | true => errorValue syn xs x
      | false => .ok 0#8
    let es ← errorPattern syn xs rest
    return e :: es

/-- The word the received word `r` is corrected to. -/
def correct (r : ByteSeq) : Except Stop ByteSeq := do
  let syn := syndromes r
  let lambda := errorLocator syn
  let xs := locators.filter (fun x => gevalLow lambda x == 0#8)
  let e ← errorPattern syn xs locators
  return xorInto r e

/-- `rs_decode` of a received word of `RS_N` bytes: the data of the code word within `RS_T` symbols and its distance, or
`FEC_UNCORRECTABLE` (41_reed_solomon.md R129, R131). -/
def rsDecode (r : ByteSeq) : Except Stop (ByteSeq × Nat) :=
  match isCodeword r with
  | true => .ok (r.take Config.rsK, 0)
  | false => do
    let c ← correct r
    failIf (!(isCodeword c && Nat.ble (dist r c) Config.rsT)) .fecUncorrectable
    return (c.take Config.rsK, dist r c)

/-! ### The operations -/

/-- `RS_ENC` (41_reed_solomon.md R130). -/
def rsEncOp (d : ByteSeq) : Except Stop ByteSeq := do
  checkLimit d.length Config.inBytesMax
  failIf (d.length != Config.rsK) .fecInvalidLength
  return rsEncode d

/-- `RS_DEC` (41_reed_solomon.md R131). -/
def rsDecOp (r : ByteSeq) : Except Stop (ByteSeq × Nat) := do
  checkLimit r.length Config.inBytesMax
  failIf (r.length != Config.rsN) .fecInvalidLength
  rsDecode r

/-- `ceil(len / RS_K)`, the number of blocks a byte sequence is split into (41_reed_solomon.md R132). -/
def blockCount (len : Nat) : Nat := (len + Config.rsK - 1) / Config.rsK

/-- The first `m` blocks of `b`, each padded with zero bytes to `RS_K` (41_reed_solomon.md R132). -/
def splitBlocks : Nat → ByteSeq → List ByteSeq
  | 0, _ => []
  | m + 1, b =>
    let blk := b.take Config.rsK
    (blk ++ rep 0#8 (Config.rsK - blk.length)) :: splitBlocks m (b.drop Config.rsK)

/-- `split` (41_reed_solomon.md R132). -/
def split (b : ByteSeq) : List ByteSeq := splitBlocks (blockCount b.length) b

/-- `FEC_ENC` (41_reed_solomon.md R133). -/
def fecEncOp (b : ByteSeq) : Except Stop ByteSeq := do
  checkLimit b.length Config.fecInMax
  return (split b).flatMap rsEncode

/-- The loop of `FEC_DEC` over `m` code words: data in order, counts summed, any uncorrectable block fails the whole
(41_reed_solomon.md R134). -/
def fecDecodeBlocks : Nat → ByteSeq → Except Stop (ByteSeq × Nat)
  | 0, _ => .ok ([], 0)
  | m + 1, b => do
    let word ← memRead b 0 Config.rsN
    let (d, w) ← rsDecode word
    let (ds, total) ← fecDecodeBlocks m (b.drop Config.rsN)
    return (d ++ ds, w + total)

/-- `FEC_DEC` (41_reed_solomon.md R134). -/
def fecDecOp (b : ByteSeq) : Except Stop (ByteSeq × Nat) := do
  checkLimit b.length Config.inBytesMax
  failIf (b.length % Config.rsN != 0) .fecInvalidLength
  fecDecodeBlocks (b.length / Config.rsN) b

/-- The response of a decoding: the data and the corrected count (10_state.md R24). -/
def decodedResponse (x : ByteSeq × Nat) : Response := Response.okDecoded x.1 x.2

/-- `RS.ENC` (41_reed_solomon.md R130). -/
def execRsEnc (inBytes : ByteSeq) (s : State) : Host.Outcome State Fault Refusal :=
  finish ((rsEncOp inBytes).map Response.okBytes) s

/-- `RS.DEC` (41_reed_solomon.md R131). -/
def execRsDec (inBytes : ByteSeq) (s : State) : Host.Outcome State Fault Refusal :=
  finish ((rsDecOp inBytes).map decodedResponse) s

/-- `FEC.ENC` (41_reed_solomon.md R133). -/
def execFecEnc (inBytes : ByteSeq) (s : State) : Host.Outcome State Fault Refusal :=
  finish ((fecEncOp inBytes).map Response.okBytes) s

/-- `FEC.DEC` (41_reed_solomon.md R134). -/
def execFecDec (inBytes : ByteSeq) (s : State) : Host.Outcome State Fault Refusal :=
  finish ((fecDecOp inBytes).map decodedResponse) s

end Sys2Proof.Machine
end

