-- ==== Sys2Proof/Machine/Pipeline.lean ====
section
/-!
DEFINITION. The pipeline operations TX.FRAME and RX.FRAME, compositions of the three units (43_pipeline.md). A failure at
any layer ends the operation with that layer's status.
-/

namespace Sys2Proof.Machine

open Sys2Proof

/-- `TX_FRAME`: PF.SER, then FEC.ENC, then MAN.ENC (43_pipeline.md R190). -/
def txFrameOp (p : Packet) : Except Stop SymSeq := do
  let f ← pfSerOp p
  let e ← fecEncOp f
  manEncOp e

/-- `RX_FRAME`: MAN.DEC with capacity `IN_BYTES_MAX`, then FEC.DEC, then PF.DES (43_pipeline.md R191). -/
def rxFrameOp (s : SymSeq) : Except Stop (Packet × Nat) := do
  checkLimit s.length Config.inSymsMax
  let a ← manDecOp s (BitVec.ofNat 16 Config.inBytesMax)
  let (data, corrected) ← fecDecOp a
  let p ← pfDesOp data
  return (p, corrected)

/-- The response of a received packet: the packet and the FEC layer's corrected count (43_pipeline.md R191). -/
def receivedResponse (x : Packet × Nat) : Response := Response.okPacket x.1 x.2

/-- `TX.FRAME` (43_pipeline.md R190). -/
def execTxFrame (inPkt : Packet) (s : State) : Host.Outcome State Fault Refusal :=
  finish ((txFrameOp inPkt).map Response.okSyms) s

/-- `RX.FRAME` (43_pipeline.md R191). -/
def execRxFrame (inSyms : SymSeq) (s : State) : Host.Outcome State Fault Refusal :=
  finish ((rxFrameOp inSyms).map receivedResponse) s

end Sys2Proof.Machine
end

