-- ==== Sys2Proof/Machine/Dispatch.lean ====
section
/-! DEFINITION. `Exec` (30_encoding.md R63): one arm per operation, each a direct call of its meaning. -/

namespace Sys2Proof.Machine

open Sys2Proof

def exec (i : Instr) (s : State) : Host.Outcome State Fault Refusal :=
  match i with
  | .manEnc inBytes => Sys2Proof.Machine.execManEnc inBytes s
  | .manDec inSyms outCap => Sys2Proof.Machine.execManDec inSyms outCap s
  | .rsEnc inBytes => Sys2Proof.Machine.execRsEnc inBytes s
  | .rsDec inBytes => Sys2Proof.Machine.execRsDec inBytes s
  | .fecEnc inBytes => Sys2Proof.Machine.execFecEnc inBytes s
  | .fecDec inBytes => Sys2Proof.Machine.execFecDec inBytes s
  | .pfSer inPkt => Sys2Proof.Machine.execPfSer inPkt s
  | .pfDes inBytes => Sys2Proof.Machine.execPfDes inBytes s
  | .txFrame inPkt => Sys2Proof.Machine.execTxFrame inPkt s
  | .rxFrame inSyms => Sys2Proof.Machine.execRxFrame inSyms s

end Sys2Proof.Machine
end

