-- ==== Sys2Proof/Machine/Step.lean ====
section
/-!
DEFINITION. One step of the machine: one step of the agent whose turn it is (10_state.md section 4). There is no program
counter and no fetch (R22): the latched request plays the instruction's part.
-/

namespace Sys2Proof.Machine

open Sys2Proof

/-- The block's COMPLETE step (10_state.md R27): the operation the latched request names, or ILLEGAL_OP (30_encoding.md
R63, R64). -/
def completeRequest (s : State) : Host.Outcome State Fault Refusal :=
  match s.req with
  | none => .fault .busyWithoutRequest
  | some r =>
    match decode r with
    | .ok i => exec i s.passTurn
    | .error _ => finishIllegal s.passTurn

/-- One step of the agent that moves next (10_state.md R26 to R28, 70_reset_and_hazards.md R230). -/
def step (s : State) : Host.Outcome State Fault Refusal :=
  match s.nextAction with
  | .wait => .next s.passTurn
  | .submit r => .next (s.takeSubmit r)
  | .read => s.takeRead
  | .complete => completeRequest s
  | .reset => .next s.takeReset

/-- `s` with the request of one opcode-table word latched and the block next to move. -/
def State.withFetchWord (s : State) (nbits w : Nat) : State := s.latchTableWord nbits w

end Sys2Proof.Machine
end

