-- ==== Sys2Proof/Safety.lean ====
section
/-!
DEFINITION. The terms in which statements about the block are made: what a well-formed response is, which statuses an
operation may raise, the invariant of the state, and plain readings of the spec's tables that the statements compare the
model with.
-/

namespace Sys2Proof.Safety

open Sys2Proof Sys2Proof.Machine

/-- The response of `fail(CODE)` with a numeric code (60_exceptions.md R202). -/
def failure (code : Byte) : Response :=
  { status := code, outBytes := [], outSyms := [], outPkt := none, corrected := 0#16 }

/-- The codes a status field can hold (60_exceptions.md R200). -/
def statusCodes : List Byte :=
  [0x00#8, 0x01#8, 0x02#8, 0x03#8, 0x10#8, 0x11#8, 0x20#8, 0x21#8, 0x22#8, 0x23#8, 0xF0#8, 0xF1#8]

/-- The codes an operation may answer with: the "raised by" column of 60_exceptions.md R200, and OK. -/
def codesOf : Instr → List Byte
  | .manEnc _   => [0x00#8, 0xF1#8]
  | .manDec _ _ => [0x00#8, 0xF1#8, 0x03#8, 0x02#8, 0x01#8]
  | .rsEnc _    => [0x00#8, 0xF1#8, 0x11#8]
  | .rsDec _    => [0x00#8, 0xF1#8, 0x11#8, 0x10#8]
  | .fecEnc _   => [0x00#8, 0xF1#8]
  | .fecDec _   => [0x00#8, 0xF1#8, 0x11#8, 0x10#8]
  | .pfSer _    => [0x00#8, 0x20#8]
  | .pfDes _    => [0x00#8, 0xF1#8, 0x21#8, 0x23#8, 0x22#8]
  | .txFrame _  => [0x00#8, 0x20#8]
  | .rxFrame _  => [0x00#8, 0xF1#8, 0x03#8, 0x01#8, 0x11#8, 0x10#8, 0x21#8, 0x23#8, 0x22#8]

/-- A response is well formed: its status is one of the twelve codes (60_exceptions.md R200); on any status but OK every
output is at its "none" value (R202); the outputs fit the block's response buffer, a packet is valid (42_framer.md R160)
and the corrected count is at most 16 (41_reed_solomon.md R134). -/
def responseWf (x : Response) : Bool :=
  statusCodes.contains x.status
    && (x.status == 0x00#8 || x == failure x.status)
    && Nat.ble x.outBytes.length 128
    && Nat.ble x.outSyms.length 2048
    && x.outPkt.all Packet.valid
    && Nat.ble x.corrected.toNat 16

/-- The invariant of the machine: a request is latched iff the phase is BUSY (10_state.md R21); no response is present
while BUSY (R26); every response present, and the one the requester holds, is well formed. -/
def inv (s : State) : Bool :=
  (s.busy == s.req.isSome)
    && !(s.busy && s.rspValid)
    && s.rsp.all responseWf
    && s.lastRead.all responseWf

/-- Two requests agree on every field the operation named by their op reads (30_encoding.md R61). -/
def agreeOnFieldsRead (r r' : Request) : Prop :=
  r.op = r'.op
    ∧ (r.op ∈ [0x01#8, 0x11#8, 0x12#8, 0x13#8, 0x14#8, 0x22#8] → r.inBytes = r'.inBytes)
    ∧ (r.op ∈ [0x02#8, 0x32#8] → r.inSyms = r'.inSyms)
    ∧ (r.op = 0x02#8 → r.outCap = r'.outCap)
    ∧ (r.op ∈ [0x21#8, 0x31#8] → r.inPkt = r'.inPkt)

/-- Every pair of the symbol sequence is `(1,0)` or `(0,1)` (40_manchester.md R100). -/
def pairsLegal (ss : SymSeq) : Prop := ∀ i, i < ss.length / 2 → ss[2 * i]? ≠ ss[2 * i + 1]?

/-- Symbol `16j + 2i` is bit `7 − i` of byte `j` and the next symbol its complement (40_manchester.md R100, R102). -/
def isManchesterImage (bs : ByteSeq) (ss : SymSeq) : Prop :=
  ss.length = 16 * bs.length
    ∧ ∀ j i (b : Byte), bs[j]? = some b → i < 8 →
      ss[16 * j + 2 * i]? = some (b.getLsbD (7 - i)) ∧ ss[16 * j + 2 * i + 1]? = some (!b.getLsbD (7 - i))

/-- Elements `i .. i+n)` of a sequence (00_scope.md R9). -/
def slice {α : Type} (l : List α) (i n : Nat) : List α := (l.drop i).take n

/-- Code word `j` of a sequence of code words. -/
def word (b : ByteSeq) (j : Nat) : ByteSeq := slice b (32 * j) 32

/-- The product of two polynomials over GF(2^8), coefficients highest degree first (41_reed_solomon.md R124). -/
def polyMul : ByteSeq → ByteSeq → ByteSeq
  | [], _ => []
  | [a], g => g.map (gmul a)
  | a :: b :: rest, g => xorInto (g.map (gmul a) ++ rep 0#8 (rest.length + 1)) (0#8 :: polyMul (b :: rest) g)

/-- The number of the `n` bytes from byte `k` on whose sixteen channel symbols differ in two symbol sequences. -/
def bytesChanged (w w' : SymSeq) (k : Nat) : Nat → Nat
  | 0 => 0
  | n + 1 => (if slice w (16 * k) 16 = slice w' (16 * k) 16 then 0 else 1) + bytesChanged w w' (k + 1) n

/-- A sequence of bytes with bit `k` inverted, bit 0 being bit 7 of the first byte. -/
def flipBit (b : ByteSeq) (k : Nat) : ByteSeq :=
  b.set (k / 8) ((b.getD (k / 8) 0#8) ^^^ (1#8 <<< (7 - k % 8)))

/-- The next turn is not a reset. -/
def noResetNext (s : State) : Prop := s.turns.head? ≠ some .reset

end Sys2Proof.Safety
end

