-- ==== Sys2Proof/Certificates/Slice0/Obligations.lean ====
section
/-!
DEFINITION. The statements about the block, for the provers. The response records and status codes are written out from the
spec's tables, not through the model's own builders. Where a statement speaks of one step of the machine, the list of turns
that says which agent moves next is the model's own (notes/assumptions/1.md).
-/

open Sys2Proof Sys2Proof.Machine Sys2Proof.Safety

/-! ### The port: reset, SUBMIT, COMPLETE, READ -/

/-- 10_state.md R32: the values after reset. The invariant is the model's reading of R21, R24 and R26. -/
def Obligations.ResetStateIsIdleWithNothingPresent : Prop :=
  State.reset.phase = .idle ∧ State.reset.req = none ∧ State.reset.rsp = none
    ∧ State.reset.busy = false ∧ State.reset.rspValid = false ∧ inv State.reset = true

/-- 70_reset_and_hazards.md R230: reset clears the triple in either phase, whatever is in progress. That it comes as a turn,
and that the other turns and the requester's last read value stay, is the model's choice (log entries 1 and 2). -/
def Obligations.ResetEventClearsTheTripleInEitherPhase : Prop :=
  ∀ (s : State) (t : List Turn), s.turns = .reset :: t →
    step s = .next { phase := .idle, req := none, rsp := none, turns := t, lastRead := s.lastRead }

/-- The invariant: a request is latched iff BUSY (10_state.md R21), no response is present while BUSY (R26), and every
response is well formed (R24; 60_exceptions.md R200, R202). -/
def Obligations.EveryStepKeepsTheInvariant : Prop :=
  ∀ s s' : State, inv s = true → step s = .next s' → inv s' = true

/-- 60_exceptions.md R204 and 10_state.md R28: from a state that keeps the invariant a step always has a next state, but for
a READ while IDLE with no response present, and there it is the fault that R28 asks for. -/
def Obligations.OnlyAReadWithNoResponseFaults : Prop :=
  ∀ s : State, inv s = true →
    (∃ s', step s = .next s')
      ∨ (s.phase = .idle ∧ s.rsp = none ∧ s.turns.head? = some .read ∧ step s = .fault .readNoResponse)

/-- 30_encoding.md R63, 60_exceptions.md R200 to R204, 10_state.md R27, R29: every operation, whatever its operands, has
exactly one response, the same in every state. The response's status is one of those the operation may raise, and on any
status but OK every output is at its none value. Nothing but the triple changes. -/
def Obligations.EveryOperationAnswersOneWellFormedResponse : Prop :=
  ∀ i : Instr, ∃ x : Response, responseWf x = true ∧ x.status ∈ codesOf i
    ∧ ∀ s : State, exec i s =
        .next { phase := .idle, req := none, rsp := some x, turns := s.turns, lastRead := s.lastRead }

/-- 60_exceptions.md R200: the "raised by" column is exact: every code it gives an operation is the status of some request
of that operation's op. -/
def Obligations.EveryStatusInTheRaisedByColumnOccurs : Prop :=
  ∀ i : Instr, ∀ c ∈ codesOf i, ∃ i' : Instr, opcode i' = opcode i
    ∧ ∃ x : Response, x.status = c ∧ ∀ s : State, exec i' s = .next (s.complete x)

/-- 10_state.md R27, 30_encoding.md R63: while BUSY, unless a reset comes first, the step is the operation that the latched
request decodes to. The block's own turn, if it is next, is used up; a requester's turn is held. -/
def Obligations.StepRunsTheLatchedOperation : Prop :=
  ∀ (s : State) (r : Request) (i : Instr), s.phase = .busy → s.req = some r → decode r = .ok i → noResetNext s →
    step s = exec i s.passTurn
      ∧ (∀ t, s.turns = .complete :: t → s.passTurn = { s with turns := t })
      ∧ (s.turns.head? ≠ some .complete → s.passTurn = s)

/-- 30_encoding.md R64: exactly 246 op values are illegal, and a request with one completes with ILLEGAL_OP and no output,
whatever its other fields. -/
def Obligations.IllegalOpCompletesWithIllegalOpStatus : Prop :=
  ((List.range 256).filter (fun n => !legalOps.contains (BitVec.ofNat 8 n))).length = 246
    ∧ ∀ (s : State) (r : Request), s.phase = .busy → s.req = some r → r.op ∉ legalOps → noResetNext s →
      step s = .next (s.passTurn.complete
        { status := 0xF0#8, outBytes := [], outSyms := [], outPkt := none, corrected := 0#16 })

/-- 10_state.md R26: SUBMIT while IDLE latches the request by value and clears the response. -/
def Obligations.SubmitLatchesTheRequestAndClearsTheResponse : Prop :=
  ∀ (s : State) (r : Request) (t : List Turn), s.phase = .idle → s.turns = .submit r :: t →
    step s = .next { phase := .busy, req := some r, rsp := none, turns := t, lastRead := s.lastRead }

/-- 70_reset_and_hazards.md R240: while BUSY a requester's SUBMIT or READ is held, and the hold is lifted by COMPLETE: the
step leaves the turn in place and the phase IDLE with a response. -/
def Obligations.RequesterHoldsWhileBusyUntilCompletion : Prop :=
  ∀ (s : State) (t : List Turn), inv s = true → s.phase = .busy →
    (s.turns = .read :: t ∨ ∃ r, s.turns = .submit r :: t) →
    ∃ x, step s = .next { phase := .idle, req := none, rsp := some x, turns := s.turns, lastRead := s.lastRead }

/-- 10_state.md R28: READ while IDLE returns the response and changes nothing in the block; with no response it faults. -/
def Obligations.ReadReturnsTheResponseOrFaults : Prop :=
  ∀ (s : State) (t : List Turn), s.phase = .idle → s.turns = .read :: t →
    (∀ x, s.rsp = some x →
      step s = .next { phase := s.phase, req := s.req, rsp := some x, turns := t, lastRead := some x })
    ∧ (s.rsp = none → step s = .fault .readNoResponse)

/-- A whole transaction (10_state.md R26 to R28): a request submitted from IDLE is completed and its response read back in
three steps of this model, and the response is the one its operation gives in any state. That no other step comes between is
the model's choice of turns (log entry 1). -/
def Obligations.SubmittedRequestIsAnsweredAndReadBack : Prop :=
  ∀ (s : State) (r : Request) (t : List Turn), s.phase = .idle → s.turns = .submit r :: .read :: t →
    ∃ x, responseWf x = true
      ∧ Host.Core.run Sys2Proof.core 3 s =
          .next { phase := .idle, req := none, rsp := some x, turns := t, lastRead := some x }
      ∧ (∀ i, decode r = .ok i → ∀ u : State, exec i u = .next (u.complete x))
      ∧ (r.op ∉ legalOps → x = failure 0xF0#8)

/-- 70_reset_and_hazards.md R231: a request abandoned by reset leaves no response, and a READ after it faults. -/
def Obligations.RequestAbandonedByResetLeavesNoResponse : Prop :=
  ∀ (s : State) (r : Request) (t : List Turn), s.phase = .idle → s.turns = .submit r :: .reset :: .read :: t →
    Host.Core.run Sys2Proof.core 2 s =
        .next { phase := .idle, req := none, rsp := none, turns := .read :: t, lastRead := s.lastRead }
      ∧ Host.Core.run Sys2Proof.core 3 s = .fault .readNoResponse

/-- 10_state.md section 4, determinism: two requests equal in every field the operation reads give equal responses, whatever
the two states hold otherwise. That COMPLETE is the very next step and that the block's turn is passed are the model's choice
(log entries 6 and 1). -/
def Obligations.ResponseDependsOnlyOnTheFieldsRead : Prop :=
  ∀ (s s' : State) (r r' : Request), s.phase = .busy → s'.phase = .busy → s.req = some r → s'.req = some r' →
    noResetNext s → noResetNext s' → agreeOnFieldsRead r r' →
    ∃ x, step s = .next (s.passTurn.complete x) ∧ step s' = .next (s'.passTurn.complete x)

/-- 60_exceptions.md R207, 10_state.md R25: only COMPLETE makes `rsp_valid` rise, and `busy` falls with it: the step was
taken while BUSY and was no reset. `busy` falls either so, or by a reset, which leaves `rsp_valid` at 0. The interrupt line
carries nothing beyond `rsp_valid`: any two states with the same `rsp_valid` have the same line, whatever the open parameter
is (log entry 5). That a reset is a turn is the model's choice (log entry 1). -/
def Obligations.CompletionIsSignalledByBusyAndRspValid : Prop :=
  (∀ s s' : State, inv s = true → step s = .next s' →
      (s.rspValid = false → s'.rspValid = true → s.busy = true ∧ s'.busy = false ∧ s.turns.head? ≠ some .reset)
        ∧ (s.busy = true → s'.busy = false →
            (s'.rspValid = true ∧ s.turns.head? ≠ some .reset)
              ∨ (s'.rspValid = false ∧ s.turns.head? = some .reset)))
    ∧ (∀ s s' : State, s.rspValid = s'.rspValid → s.irqLine = s'.irqLine)

/-- 10_state.md R22: with no turn to take, an IDLE block waits: the step changes nothing. That waiting is a step is the
model's choice (log entry 1). -/
def Obligations.IdleBlockWithNoTurnWaits : Prop :=
  ∀ s : State, s.phase = .idle → s.turns = [] → step s = .next s

/-! ### Encoding -/

/-- 30_encoding.md R60: some words of the table, written out, and what the decoder reads from them. -/
def Obligations.SampleOpcodeWordsDecode : Prop :=
  decodeTableWord 8 0b00000001 = some (.manEnc [])
    ∧ decodeTableWord 8 0b00000010 = some (.manDec [] 0#16)
    ∧ decodeTableWord 8 0b00010001 = some (.rsEnc [])
    ∧ decodeTableWord 8 0b00010100 = some (.fecDec [])
    ∧ decodeTableWord 8 0b00100010 = some (.pfDes [])
    ∧ decodeTableWord 8 0b00110010 = some (.rxFrame [])
    ∧ decodeTableWord 8 0b00000000 = none
    ∧ decodeTableWord 8 0b00110011 = none

/-- 30_encoding.md R60, R61, R63: the encoded request of every operation decodes to it, for every operand value; and a
request that decodes to `i` is `i`'s encoded request up to the fields `i`'s format does not read. -/
def Obligations.DecodeAndEncodeAgree : Prop :=
  (∀ i : Instr, decode (encode i) = .ok i)
    ∧ (∀ (r : Request) (i : Instr), decode r = .ok i ↔ agreeOnFieldsRead (encode i) r)
    ∧ (∀ r : Request, (∃ i, decode r = .ok i) ↔ r.op ∈ legalOps)

/-- 30_encoding.md R61: the format names the fields an operation reads; every other field is ignored whatever its value. -/
def Obligations.DecodeIgnoresFieldsOutsideTheFormat : Prop :=
  ∀ (r r' : Request) (i : Instr), decode r = .ok i → r'.op = r.op →
    (i.format = .byteInput → r'.inBytes = r.inBytes → decode r' = .ok i)
      ∧ (i.format = .symbolInput → r'.inSyms = r.inSyms → (r.op = 0x02#8 → r'.outCap = r.outCap) → decode r' = .ok i)
      ∧ (i.format = .packetInput → r'.inPkt = r.inPkt → decode r' = .ok i)

/-- 20_memory.md R44: symbol 8j + i of the unpacked form is bit 7 − i of byte j; packing and unpacking are inverse, and a
length that is no multiple of 8 has no packed form. -/
def Obligations.PackedSymbolsRoundTrip : Prop :=
  (∀ b : ByteSeq, (unpackSyms b).length = 8 * b.length
      ∧ ∀ j i (x : Byte), b[j]? = some x → i < 8 → (unpackSyms b)[8 * j + i]? = some (x.getLsbD (7 - i))) ∧
  (∀ b : ByteSeq, packSyms (unpackSyms b) = some b)
    ∧ (∀ (ss : SymSeq) (b : ByteSeq), packSyms ss = some b → unpackSyms b = ss)
    ∧ (∀ ss : SymSeq, packSyms ss = none ↔ ss.length % 8 ≠ 0)

/-! ### Manchester codec -/

/-- 40_manchester.md R104 (with R100 to R103): MAN.ENC sends bit 7 − i of byte j as the pair at symbol 16j + 2i, for every
input of at most 128 bytes, and fails on a longer one. -/
def Obligations.ManEncSendsEveryBitAsItsPair : Prop :=
  ∀ bs : ByteSeq,
    (bs.length ≤ 128 → ∃ ss, isManchesterImage bs ss ∧ ∀ s : State, exec (.manEnc bs) s =
        .next (s.complete { status := 0x00#8, outBytes := [], outSyms := ss, outPkt := none, corrected := 0#16 }))
      ∧ (128 < bs.length → ∀ s : State, exec (.manEnc bs) s = .next (s.complete (failure 0xF1#8)))

/-- 40_manchester.md R106: MAN.DEC on an input within the limits and with every pair legal gives the bytes whose image it
is; otherwise the first failing check, in the order limit, length, capacity, transition, gives the status. -/
def Obligations.ManDecDecodesOrFailsAtTheFirstCheck : Prop :=
  ∀ (ss : SymSeq) (cap : U16),
    (2048 < ss.length → ∀ s : State, exec (.manDec ss cap) s = .next (s.complete (failure 0xF1#8)))
      ∧ (ss.length ≤ 2048 → ss.length % 16 ≠ 0 →
          ∀ s : State, exec (.manDec ss cap) s = .next (s.complete (failure 0x03#8)))
      ∧ (ss.length ≤ 2048 → ss.length % 16 = 0 → cap.toNat < ss.length / 16 →
          ∀ s : State, exec (.manDec ss cap) s = .next (s.complete (failure 0x02#8)))
      ∧ (ss.length ≤ 2048 → ss.length % 16 = 0 → ss.length / 16 ≤ cap.toNat → ¬ pairsLegal ss →
          ∀ s : State, exec (.manDec ss cap) s = .next (s.complete (failure 0x01#8)))
      ∧ (ss.length ≤ 2048 → ss.length % 16 = 0 → ss.length / 16 ≤ cap.toNat → pairsLegal ss →
          ∃ bs, isManchesterImage bs ss ∧ ∀ s : State, exec (.manDec ss cap) s =
            .next (s.complete { status := 0x00#8, outBytes := bs, outSyms := [], outPkt := none, corrected := 0#16 }))

/-- 40_manchester.md R107: decoding what MAN.ENC answers gives the bytes back. -/
def Obligations.ManchesterDecodeOfEncodeIsIdentity : Prop :=
  ∀ (b : ByteSeq) (cap : U16), b.length ≤ 128 → b.length ≤ cap.toNat →
    ∃ x : Response, (∀ s : State, exec (.manEnc b) s = .next (s.complete x)) ∧ x.status = 0x00#8
      ∧ ∀ s : State, exec (.manDec x.outSyms cap) s =
        .next (s.complete { status := 0x00#8, outBytes := b, outSyms := [], outPkt := none, corrected := 0#16 })

/-- 40_manchester.md R108: one transition in the middle of every bit cell, balance, no run of equal symbols longer than 2,
and concatenation. -/
def Obligations.ManchesterImageIsSelfClockingBalancedAndConcatenates : Prop :=
  (∀ (b : ByteSeq) (i : Nat), i < 8 * b.length → (manEncode b)[2 * i]? ≠ (manEncode b)[2 * i + 1]?)
    ∧ (∀ b : ByteSeq, (manEncode b).count true = 8 * b.length ∧ (manEncode b).count false = 8 * b.length)
    ∧ (∀ (b : ByteSeq) (k : Nat), k + 2 < (manEncode b).length →
        ¬ ((manEncode b)[k]? = (manEncode b)[k + 1]? ∧ (manEncode b)[k + 1]? = (manEncode b)[k + 2]?))
    ∧ (∀ a b : ByteSeq, manEncode (a ++ b) = manEncode a ++ manEncode b)

/-- 40_manchester.md R105: each byte's symbols decode alone: the decoding of two inputs one after the other is the two
decodings one after the other, and fails with the transition status if either does. -/
def Obligations.ManDecDecodesEachPartAlone : Prop :=
  ∀ (u v : SymSeq) (cap : U16), u.length % 16 = 0 → v.length % 16 = 0 → u.length + v.length ≤ 2048 →
    (u.length + v.length) / 16 ≤ cap.toNat →
    ∃ x y z : Response, (∀ s : State, exec (.manDec u cap) s = .next (s.complete x))
      ∧ (∀ s : State, exec (.manDec v cap) s = .next (s.complete y))
      ∧ (∀ s : State, exec (.manDec (u ++ v) cap) s = .next (s.complete z))
      ∧ (x.status = 0x00#8 → y.status = 0x00#8 → z.status = 0x00#8 ∧ z.outBytes = x.outBytes ++ y.outBytes)
      ∧ (x.status = 0x01#8 ∨ y.status = 0x01#8 → z = failure 0x01#8)

/-! ### The field GF(2^8) -/

/-- A bit vector as a polynomial over GF(2) (41_reed_solomon.md R120). -/
noncomputable def Sys2Proof.Safety.toPoly {n : Nat} (b : BitVec n) : Polynomial (ZMod 2) :=
  (Finset.range n).sum (fun i => if b.getLsbD i then Polynomial.X ^ i else 0)

/-- 41_reed_solomon.md R121: multiplication is polynomial multiplication reduced modulo GF_POLY. A byte has degree below 8,
so congruence modulo GF_POLY, of degree 8, fixes the product. -/
def Obligations.GmulIsThePolynomialProductModuloGfPoly : Prop :=
  ∀ a b : Byte, toPoly (0x11D#9) ∣ toPoly (gmul a b) - toPoly a * toPoly b

/-- 41_reed_solomon.md R120, R121: the ring laws of the field's addition and multiplication. -/
def Obligations.GaloisFieldRingLaws : Prop :=
  (∀ a b : Byte, gadd a b = a ^^^ b)
    ∧ (∀ a b : Byte, gmul a b = gmul b a)
    ∧ (∀ a b c : Byte, gmul (gmul a b) c = gmul a (gmul b c))
    ∧ (∀ a b c : Byte, gmul a (gadd b c) = gadd (gmul a b) (gmul a c))
    ∧ (∀ a : Byte, gmul a 0x01#8 = a)
    ∧ (∀ a : Byte, gmul a 0x00#8 = 0x00#8)

/-- 41_reed_solomon.md R122: the powers of α are the 255 nonzero bytes, `log` inverts `exp`, and products are sums of
logarithms. `log(0)` is undefined there; that its evaluation is a fault is log entry 11, from 93_implementation_defined.md
section 2. -/
def Obligations.AlphaIsPrimitiveAndLogsMultiply : Prop :=
  gpow 0x02#8 255 = 0x01#8
    ∧ (∀ i : Nat, i < 255 → gexp i ≠ 0x00#8 ∧ glog (gexp i) = .ok i)
    ∧ (∀ a : Byte, a ≠ 0x00#8 → ∃ i, i < 255 ∧ glog a = .ok i ∧ gexp i = a)
    ∧ (∀ (a b : Byte) (i j : Nat), glog a = .ok i → glog b = .ok j → gmul a b = gexp (i + j))
    ∧ glog 0x00#8 = .error (.fault .logOfZero)

/-- 41_reed_solomon.md section 1, derived operations: powers, inverses and division. `ginv(0)` is undefined there; that its
evaluation is a fault is log entry 11, from 93_implementation_defined.md section 2. -/
def Obligations.PowersInversesAndDivision : Prop :=
  (∀ a : Byte, gpow a 0 = 0x01#8)
    ∧ (∀ (a : Byte) (e : Nat), 1 ≤ e → gpow a e = gmul a (gpow a (e - 1)))
    ∧ (∀ e : Nat, 1 ≤ e → gpow 0x00#8 e = 0x00#8)
    ∧ (∀ a : Byte, a ≠ 0x00#8 → ginv a = .ok (gpow a 254) ∧ ∀ b : Byte, gmul a b = 0x01#8 ↔ b = gpow a 254)
    ∧ (∀ a b i : Byte, b ≠ 0x00#8 → ginv b = .ok i → gdiv a b = .ok (gmul a i))
    ∧ ginv 0x02#8 = .ok 0x8E#8 ∧ ginv 0x53#8 = .ok 0x8C#8
    ∧ ginv 0x00#8 = .error (.fault .inverseOfZero)

/-! ### Reed-Solomon -/

/-- 41_reed_solomon.md R126: the encoding of 24 data bytes is the data followed by 8 parity bytes, it is in the code, and
every code word is the encoding of its first 24 bytes. -/
def Obligations.RsEncodeIsSystematicAndFillsTheCode : Prop :=
  (∀ d : ByteSeq, d.length = 24 →
      (rsEncode d).length = 32 ∧ (rsEncode d).take 24 = d
        ∧ ∀ j, j < 8 → gevalHigh (rsEncode d) (gpow 0x02#8 j) = 0x00#8)
    ∧ (∀ c : ByteSeq, c.length = 32 → (∀ j, j < 8 → gevalHigh c (gpow 0x02#8 j) = 0x00#8) → rsEncode (c.take 24) = c)

/-- 41_reed_solomon.md R125, R126: a word of 32 bytes has the roots α^0 .. α^7 iff the generator divides it, and the parity
is what makes `d(x)·x^8 + p(x)` a multiple of the generator. -/
def Obligations.CodeWordsAreTheMultiplesOfTheGenerator : Prop :=
  (∀ c : ByteSeq, isCodeword c = true ↔
      ∃ q : ByteSeq, q.length = 24 ∧
        polyMul q [0x01#8, 0xFF#8, 0x0B#8, 0x51#8, 0x36#8, 0xEF#8, 0xAD#8, 0xC8#8, 0x18#8] = c)
    ∧ (∀ d : ByteSeq, d.length = 24 → (rsParity d).length = 8 ∧ ∃ q : ByteSeq, q.length = 24 ∧
        polyMul q [0x01#8, 0xFF#8, 0x0B#8, 0x51#8, 0x36#8, 0xEF#8, 0xAD#8, 0xC8#8, 0x18#8] = d ++ rsParity d)

/-- 41_reed_solomon.md R128: distinct code words differ in at least 9 positions, so at most one lies within 4 of a word. -/
def Obligations.DistinctCodeWordsDifferInNinePositions : Prop :=
  (∀ a b : ByteSeq, isCodeword a = true → isCodeword b = true → a ≠ b → 9 ≤ dist a b)
    ∧ (∀ r a b : ByteSeq, r.length = 32 → isCodeword a = true → isCodeword b = true → dist r a ≤ 4 → dist r b ≤ 4 → a = b)

/-- 41_reed_solomon.md R130: RS.ENC answers the code word of 24 data bytes and refuses every other length. -/
def Obligations.RsEncAnswersTheCodeWordOfItsData : Prop :=
  ∀ d : ByteSeq,
    (128 < d.length → ∀ s : State, exec (.rsEnc d) s = .next (s.complete (failure 0xF1#8)))
      ∧ (d.length ≤ 128 → d.length ≠ 24 → ∀ s : State, exec (.rsEnc d) s = .next (s.complete (failure 0x11#8)))
      ∧ (d.length = 24 → ∃ p : ByteSeq, p.length = 8 ∧ isCodeword (d ++ p) = true ∧ ∀ s : State, exec (.rsEnc d) s =
          .next (s.complete { status := 0x00#8, outBytes := d ++ p, outSyms := [], outPkt := none, corrected := 0#16 }))

/-- 41_reed_solomon.md R129, R131: RS.DEC is bounded-distance decoding: the data of the code word within 4 byte errors and
its distance, FEC_UNCORRECTABLE if there is none, and a failure for every other length. -/
def Obligations.RsDecIsBoundedDistanceDecoding : Prop :=
  ∀ r : ByteSeq,
    (128 < r.length → ∀ s : State, exec (.rsDec r) s = .next (s.complete (failure 0xF1#8)))
      ∧ (r.length ≤ 128 → r.length ≠ 32 → ∀ s : State, exec (.rsDec r) s = .next (s.complete (failure 0x11#8)))
      ∧ (∀ c : ByteSeq, r.length = 32 → isCodeword c = true → dist r c ≤ 4 → ∀ s : State, exec (.rsDec r) s =
          .next (s.complete { status := 0x00#8, outBytes := c.take 24, outSyms := [], outPkt := none,
                              corrected := BitVec.ofNat 16 (dist r c) }))
      ∧ (r.length = 32 →
          (∃ c : ByteSeq, isCodeword c = true ∧ dist r c ≤ 4)
            ∨ ((∀ c : ByteSeq, isCodeword c = true → 4 < dist r c)
                ∧ ∀ s : State, exec (.rsDec r) s = .next (s.complete (failure 0x10#8))))

/-- 41_reed_solomon.md R138: up to four byte errors are corrected and counted; with more, the answer is FEC_UNCORRECTABLE or
the data of a code word within 4 of the received word. -/
def Obligations.RsDecCorrectsUpToFourErrorsOfAnEncoding : Prop :=
  ∀ d e : ByteSeq, d.length = 24 → e.length = 32 →
    (dist e (List.replicate 32 0x00#8) ≤ 4 →
        ∀ s : State, exec (.rsDec (List.zipWith (· ^^^ ·) (rsEncode d) e)) s =
          .next (s.complete { status := 0x00#8, outBytes := d, outSyms := [], outPkt := none,
                              corrected := BitVec.ofNat 16 (dist e (List.replicate 32 0x00#8)) }))
      ∧ (4 < dist e (List.replicate 32 0x00#8) →
          (∀ s : State, exec (.rsDec (List.zipWith (· ^^^ ·) (rsEncode d) e)) s = .next (s.complete (failure 0x10#8)))
            ∨ ∃ (d' : ByteSeq) (w' : Nat), d'.length = 24 ∧ w' ≤ 4
                ∧ dist (List.zipWith (· ^^^ ·) (rsEncode d) e) (rsEncode d') = w'
                ∧ ∀ s : State, exec (.rsDec (List.zipWith (· ^^^ ·) (rsEncode d) e)) s =
                    .next (s.complete { status := 0x00#8, outBytes := d', outSyms := [], outPkt := none,
                                        corrected := BitVec.ofNat 16 w' }))

/-- 41_reed_solomon.md R132, R133: FEC.ENC answers ceil(len / 24) code words, word j being the encoding of bytes
24j .. 24j+24 of the input with zero bytes past its end. -/
def Obligations.FecEncSplitsPadsAndEncodesEachBlock : Prop :=
  ∀ b : ByteSeq,
    (96 < b.length → ∀ s : State, exec (.fecEnc b) s = .next (s.complete (failure 0xF1#8)))
      ∧ (b.length ≤ 96 → ∃ out : ByteSeq, out.length = 32 * ((b.length + 23) / 24)
          ∧ (∀ j, j < (b.length + 23) / 24 →
              word out j = rsEncode ((List.range 24).map (fun i => b.getD (24 * j + i) 0x00#8)))
          ∧ ∀ s : State, exec (.fecEnc b) s =
              .next (s.complete { status := 0x00#8, outBytes := out, outSyms := [], outPkt := none,
                                  corrected := 0#16 }))

/-- 41_reed_solomon.md R134: FEC.DEC answers the data of every block and the sum of the counts, or fails as a whole. -/
def Obligations.FecDecDecodesEveryBlockOrFails : Prop :=
  ∀ b : ByteSeq,
    (128 < b.length → ∀ s : State, exec (.fecDec b) s = .next (s.complete (failure 0xF1#8)))
      ∧ (b.length ≤ 128 → b.length % 32 ≠ 0 → ∀ s : State, exec (.fecDec b) s = .next (s.complete (failure 0x11#8)))
      ∧ (∀ cs : List ByteSeq, b.length ≤ 128 → b.length = 32 * cs.length →
          (∀ j, j < cs.length → isCodeword (cs.getD j []) = true ∧ dist (word b j) (cs.getD j []) ≤ 4) →
          ∀ s : State, exec (.fecDec b) s =
            .next (s.complete { status := 0x00#8, outBytes := cs.flatMap (List.take 24), outSyms := [], outPkt := none,
                                corrected := BitVec.ofNat 16
                                  ((List.range cs.length).map (fun j => dist (word b j) (cs.getD j []))).sum }))
      ∧ (b.length ≤ 128 → b.length % 32 = 0 →
          (∀ j, j < b.length / 32 → ∃ c : ByteSeq, isCodeword c = true ∧ dist (word b j) c ≤ 4)
            ∨ ((∃ j, j < b.length / 32 ∧ ∀ c : ByteSeq, isCodeword c = true → 4 < dist (word b j) c)
                ∧ ∀ s : State, exec (.fecDec b) s = .next (s.complete (failure 0x10#8))))

/-- 41_reed_solomon.md R135, for sequences whose concatenation is within the input limits: blocks are coded and decoded
independently, and counts add. -/
def Obligations.FecBlocksAreIndependent : Prop :=
  (∀ a b : ByteSeq, a.length % 24 = 0 → b.length % 24 = 0 → a.length + b.length ≤ 96 →
      ∃ x y z : Response, (∀ s : State, exec (.fecEnc a) s = .next (s.complete x))
        ∧ (∀ s : State, exec (.fecEnc b) s = .next (s.complete y))
        ∧ (∀ s : State, exec (.fecEnc (a ++ b)) s = .next (s.complete z))
        ∧ z.status = 0x00#8 ∧ z.outBytes = x.outBytes ++ y.outBytes)
    ∧ (∀ u v : ByteSeq, u.length % 32 = 0 → v.length % 32 = 0 → u.length + v.length ≤ 128 →
      ∃ x y z : Response, (∀ s : State, exec (.fecDec u) s = .next (s.complete x))
        ∧ (∀ s : State, exec (.fecDec v) s = .next (s.complete y))
        ∧ (∀ s : State, exec (.fecDec (u ++ v)) s = .next (s.complete z))
        ∧ (x.status = 0x00#8 → y.status = 0x00#8 → z.status = 0x00#8 ∧ z.outBytes = x.outBytes ++ y.outBytes
            ∧ z.corrected = x.corrected + y.corrected)
        ∧ (x.status = 0x10#8 ∨ y.status = 0x10#8 → z = failure 0x10#8))

/-! ### Packet framer -/

/-- The polynomial over GF(2) of a message, bytes in order, the most significant bit of each first: the first bit is the
highest coefficient (42_framer.md R164). -/
noncomputable def Sys2Proof.Safety.messagePoly : ByteSeq → Polynomial (ZMod 2)
  | [] => 0
  | b :: rest => toPoly b * Polynomial.X ^ (8 * rest.length) + messagePoly rest

/-- 42_framer.md R164: the pseudocode of `crc16`, byte by byte; and what it computes: the remainder modulo
x^16 + x^12 + x^5 + 1 of the message times x^16, the initial value 0xFFFF standing before the message, with no reflection and
no final exclusive-or. A 16-bit value has degree below 16, so congruence modulo that polynomial fixes it. With the two check
values of the rule. -/
def Obligations.CrcIsTheRemainderByItsPolynomial : Prop :=
  (∀ bs : ByteSeq, toPoly (0x11021#17) ∣
      toPoly (crc16 bs)
        - (toPoly (0xFFFF#16) * Polynomial.X ^ (8 * bs.length) + messagePoly bs * Polynomial.X ^ 16))
    ∧ crc16 [] = 0xFFFF#16
    ∧ (∀ (bs : ByteSeq) (b : Byte), crc16 (bs ++ [b]) =
        Nat.iterate (fun crc : U16 => if crc.getLsbD 15 = true then (crc <<< 1) ^^^ 0x1021#16 else crc <<< 1) 8
          (crc16 bs ^^^ (b.zeroExtend 16 <<< 8)))
    ∧ crc16 [0x31#8, 0x32#8, 0x33#8, 0x34#8, 0x35#8, 0x36#8, 0x37#8, 0x38#8, 0x39#8] = 0x29B1#16

/-- 42_framer.md R161, R162, R165, R170: PF.SER lays the packet out byte by byte, big-endian, with the CRC of everything
before it, for every packet with at most 64 payload bytes, and refuses a longer payload. `crc16` is tied to R164 by
`CrcIsTheRemainderByItsPolynomial`. -/
def Obligations.PfSerLaysOutTheFrame : Prop :=
  ∀ p : Packet,
    (64 < p.payload.length → ∀ s : State, exec (.pfSer p) s = .next (s.complete (failure 0x20#8)))
      ∧ (p.payload.length ≤ 64 → ∃ (flags : Byte) (body : ByteSeq),
          flags.getLsbD 0 = p.ack ∧ flags.getLsbD 1 = p.retry ∧ flags.extractLsb' 2 6 = 0#6
            ∧ body = [p.senderId.extractLsb' 8 8, p.senderId.extractLsb' 0 8,
                      p.receiverId.extractLsb' 8 8, p.receiverId.extractLsb' 0 8,
                      p.sequence, flags, BitVec.ofNat 8 p.payload.length] ++ p.payload
            ∧ ∀ s : State, exec (.pfSer p) s =
              .next (s.complete { status := 0x00#8,
                                  outBytes := body ++ [(crc16 body).extractLsb' 8 8, (crc16 body).extractLsb' 0 8],
                                  outSyms := [], outPkt := none, corrected := 0#16 }))

/-- 42_framer.md R171: PF.DES makes its checks in order and builds the packet only when all pass; bytes past the frame are
ignored. `crc16` is tied to R164 by `CrcIsTheRemainderByItsPolynomial`. -/
def Obligations.PfDesChecksInOrderThenBuildsThePacket : Prop :=
  ∀ (b : ByteSeq) (len : Nat), len = (b.getD 6 0x00#8).toNat →
    (128 < b.length → ∀ s : State, exec (.pfDes b) s = .next (s.complete (failure 0xF1#8)))
      ∧ (b.length < 9 → ∀ s : State, exec (.pfDes b) s = .next (s.complete (failure 0x21#8)))
      ∧ (9 ≤ b.length → b.length ≤ 128 → 64 < len →
          ∀ s : State, exec (.pfDes b) s = .next (s.complete (failure 0x23#8)))
      ∧ (9 ≤ b.length → b.length ≤ 128 → len ≤ 64 → b.length < 9 + len →
          ∀ s : State, exec (.pfDes b) s = .next (s.complete (failure 0x21#8)))
      ∧ (b.length ≤ 128 → len ≤ 64 → 9 + len ≤ b.length →
          crc16 (b.take (7 + len)) ≠ b.getD (7 + len) 0x00#8 ++ b.getD (8 + len) 0x00#8 →
          ∀ s : State, exec (.pfDes b) s = .next (s.complete (failure 0x22#8)))
      ∧ (b.length ≤ 128 → len ≤ 64 → 9 + len ≤ b.length →
          crc16 (b.take (7 + len)) = b.getD (7 + len) 0x00#8 ++ b.getD (8 + len) 0x00#8 →
          (b.getD 5 0x00#8).extractLsb' 2 6 ≠ 0#6 →
          ∀ s : State, exec (.pfDes b) s = .next (s.complete (failure 0x23#8)))
      ∧ (b.length ≤ 128 → len ≤ 64 → 9 + len ≤ b.length →
          crc16 (b.take (7 + len)) = b.getD (7 + len) 0x00#8 ++ b.getD (8 + len) 0x00#8 →
          (b.getD 5 0x00#8).extractLsb' 2 6 = 0#6 →
          ∀ s : State, exec (.pfDes b) s =
            .next (s.complete { status := 0x00#8, outBytes := [], outSyms := [],
                                outPkt := some { senderId := b.getD 0 0x00#8 ++ b.getD 1 0x00#8,
                                                 receiverId := b.getD 2 0x00#8 ++ b.getD 3 0x00#8,
                                                 sequence := b.getD 4 0x00#8,
                                                 ack := (b.getD 5 0x00#8).getLsbD 0,
                                                 retry := (b.getD 5 0x00#8).getLsbD 1,
                                                 payload := slice b 7 len },
                                corrected := 0#16 }))

/-- 42_framer.md R172: deserialising a serialised packet, with anything after it within the limit, gives the packet back;
and what PF.DES accepts begins with the frame of the packet it answers. -/
def Obligations.FramerRoundTrip : Prop :=
  (∀ (p : Packet) (z : ByteSeq), p.payload.length ≤ 64 → 9 + p.payload.length + z.length ≤ 128 →
      ∃ x : Response, (∀ s : State, exec (.pfSer p) s = .next (s.complete x)) ∧ x.status = 0x00#8
        ∧ ∀ s : State, exec (.pfDes (x.outBytes ++ z)) s =
          .next (s.complete { status := 0x00#8, outBytes := [], outSyms := [], outPkt := some p, corrected := 0#16 }))
    ∧ (∀ (b : ByteSeq) (p : Packet) (x : Response), (∀ s : State, exec (.pfDes b) s = .next (s.complete x)) →
        x.outPkt = some p →
        ∀ s : State, exec (.pfSer p) s =
          .next (s.complete { status := 0x00#8, outBytes := b.take (9 + p.payload.length), outSyms := [],
                              outPkt := none, corrected := 0#16 }))

/-- 42_framer.md R171, corner cases: a change of one bit anywhere in a frame but in its length byte is refused with
FRAME_INTEGRITY_MISMATCH. -/
def Obligations.OneBitChangeOffTheLengthByteIsAnIntegrityMismatch : Prop :=
  ∀ (p : Packet) (k : Nat), p.payload.length ≤ 64 → k < 8 * (9 + p.payload.length) → k / 8 ≠ 6 →
    ∃ x : Response, (∀ s : State, exec (.pfSer p) s = .next (s.complete x)) ∧ x.outBytes.length = 9 + p.payload.length
      ∧ ∀ s : State, exec (.pfDes (flipBit x.outBytes k)) s = .next (s.complete (failure 0x22#8))

/-! ### Pipeline -/

/-- 43_pipeline.md R190: TX.FRAME is PF.SER, then FEC.ENC, then MAN.ENC, and sends 512 channel symbols per block. -/
def Obligations.TxFrameIsSerialiseThenFecThenManchester : Prop :=
  ∀ p : Packet,
    (64 < p.payload.length → ∀ s : State, exec (.txFrame p) s = .next (s.complete (failure 0x20#8)))
      ∧ (p.payload.length ≤ 64 → ∃ f e m : Response,
          (∀ s : State, exec (.pfSer p) s = .next (s.complete f))
            ∧ (∀ s : State, exec (.fecEnc f.outBytes) s = .next (s.complete e))
            ∧ (∀ s : State, exec (.manEnc e.outBytes) s = .next (s.complete m))
            ∧ f.status = 0x00#8 ∧ e.status = 0x00#8 ∧ m.status = 0x00#8
            ∧ m.outSyms.length = 512 * ((9 + p.payload.length + 23) / 24)
            ∧ ∀ s : State, exec (.txFrame p) s =
                .next (s.complete { status := 0x00#8, outBytes := [], outSyms := m.outSyms, outPkt := none,
                                    corrected := 0#16 }))

/-- 43_pipeline.md R191: RX.FRAME is MAN.DEC with capacity 128, then FEC.DEC, then PF.DES; the first failing layer's status
is the answer, and the count is the FEC layer's. -/
def Obligations.RxFrameIsManchesterThenFecThenDeserialise : Prop :=
  ∀ ss : SymSeq,
    (2048 < ss.length → ∀ s : State, exec (.rxFrame ss) s = .next (s.complete (failure 0xF1#8)))
      ∧ (ss.length ≤ 2048 → ∃ a b c : Response,
          (∀ s : State, exec (.manDec ss 128#16) s = .next (s.complete a))
            ∧ (∀ s : State, exec (.fecDec a.outBytes) s = .next (s.complete b))
            ∧ (∀ s : State, exec (.pfDes b.outBytes) s = .next (s.complete c))
            ∧ a.status ≠ 0x02#8
            ∧ (a.status ≠ 0x00#8 → ∀ s : State, exec (.rxFrame ss) s = .next (s.complete (failure a.status)))
            ∧ (a.status = 0x00#8 → b.status ≠ 0x00#8 →
                ∀ s : State, exec (.rxFrame ss) s = .next (s.complete (failure b.status)))
            ∧ (a.status = 0x00#8 → b.status = 0x00#8 → c.status ≠ 0x00#8 →
                ∀ s : State, exec (.rxFrame ss) s = .next (s.complete (failure c.status)))
            ∧ (a.status = 0x00#8 → b.status = 0x00#8 → c.status = 0x00#8 → ∀ s : State, exec (.rxFrame ss) s =
                .next (s.complete { status := 0x00#8, outBytes := [], outSyms := [], outPkt := c.outPkt,
                                    corrected := b.corrected })))

/-- 43_pipeline.md R193: a packet sent and received comes back with count 0, and still comes back, with the number of
changed bytes, when at most four bytes of each code word are changed and every pair stays legal; an illegal pair anywhere
is MAN_INVALID_TRANSITION. -/
def Obligations.RxFrameReceivesWhatTxFrameSends : Prop :=
  ∀ p : Packet, p.payload.length ≤ 64 → ∃ x : Response,
    (∀ s : State, exec (.txFrame p) s = .next (s.complete x)) ∧ x.status = 0x00#8
      ∧ (∀ s : State, exec (.rxFrame x.outSyms) s =
          .next (s.complete { status := 0x00#8, outBytes := [], outSyms := [], outPkt := some p, corrected := 0#16 }))
      ∧ (∀ w : SymSeq, w.length = x.outSyms.length → pairsLegal w →
          (∀ j, j < w.length / 512 → bytesChanged x.outSyms w (32 * j) 32 ≤ 4) →
          ∀ s : State, exec (.rxFrame w) s =
            .next (s.complete { status := 0x00#8, outBytes := [], outSyms := [], outPkt := some p,
                                corrected := BitVec.ofNat 16 (bytesChanged x.outSyms w 0 (w.length / 16)) }))
      ∧ (∀ w : SymSeq, w.length = x.outSyms.length → ¬ pairsLegal w →
          ∀ s : State, exec (.rxFrame w) s = .next (s.complete (failure 0x01#8)))

/-- 43_pipeline.md R192: the wire image is the Manchester image of the code words of the frame's blocks; its first pair is
bit 7 of the high byte of `sender_id`, and between 1 and 4 code words are sent. -/
def Obligations.WireImageIsTheManchesterImageOfTheCodeWords : Prop :=
  ∀ (p : Packet) (n : Nat), p.payload.length ≤ 64 → n = (9 + p.payload.length + 23) / 24 →
    ∃ x f : Response, (∀ s : State, exec (.txFrame p) s = .next (s.complete x))
      ∧ (∀ s : State, exec (.pfSer p) s = .next (s.complete f))
      ∧ isManchesterImage ((List.range n).flatMap (fun j =>
          rsEncode ((List.range 24).map (fun i => f.outBytes.getD (24 * j + i) 0x00#8)))) x.outSyms
      ∧ 1 ≤ n ∧ n ≤ 4
      ∧ x.outSyms[0]? = some (p.senderId.getLsbD 15) ∧ x.outSyms[1]? = some (!p.senderId.getLsbD 15)
end

