-- ==== Sys2Proof/Laws/State.lean ====
section
/-!
SUPPORT. One lemma per field of State per update, so that no later proof unfolds a record update, and the small lemmas of
the status indications and of the response builders.
-/

namespace Sys2Proof.Machine

open Sys2Proof Sys2Proof.Safety

@[simp] theorem State.latch_phase (s : State) (r : Request) : (s.latch r).phase = .busy := rfl
@[simp] theorem State.latch_req (s : State) (r : Request) : (s.latch r).req = some r := rfl
@[simp] theorem State.latch_rsp (s : State) (r : Request) : (s.latch r).rsp = none := rfl
@[simp] theorem State.latch_turns (s : State) (r : Request) : (s.latch r).turns = s.turns := rfl
@[simp] theorem State.latch_lastRead (s : State) (r : Request) : (s.latch r).lastRead = s.lastRead := rfl

@[simp] theorem State.complete_phase (s : State) (x : Response) : (s.complete x).phase = .idle := rfl
@[simp] theorem State.complete_req (s : State) (x : Response) : (s.complete x).req = none := rfl
@[simp] theorem State.complete_rsp (s : State) (x : Response) : (s.complete x).rsp = some x := rfl
@[simp] theorem State.complete_turns (s : State) (x : Response) : (s.complete x).turns = s.turns := rfl
@[simp] theorem State.complete_lastRead (s : State) (x : Response) : (s.complete x).lastRead = s.lastRead := rfl

@[simp] theorem State.clear_phase (s : State) : (s.clear).phase = .idle := rfl
@[simp] theorem State.clear_req (s : State) : (s.clear).req = none := rfl
@[simp] theorem State.clear_rsp (s : State) : (s.clear).rsp = none := rfl
@[simp] theorem State.clear_turns (s : State) : (s.clear).turns = s.turns := rfl
@[simp] theorem State.clear_lastRead (s : State) : (s.clear).lastRead = s.lastRead := rfl

@[simp] theorem State.dropTurn_phase (s : State) : (s.dropTurn).phase = s.phase := rfl
@[simp] theorem State.dropTurn_req (s : State) : (s.dropTurn).req = s.req := rfl
@[simp] theorem State.dropTurn_rsp (s : State) : (s.dropTurn).rsp = s.rsp := rfl
@[simp] theorem State.dropTurn_turns (s : State) : (s.dropTurn).turns = s.turns.tail := rfl
@[simp] theorem State.dropTurn_lastRead (s : State) : (s.dropTurn).lastRead = s.lastRead := rfl

@[simp] theorem State.takeSubmit_phase (s : State) (r : Request) : (s.takeSubmit r).phase = .busy := rfl
@[simp] theorem State.takeSubmit_req (s : State) (r : Request) : (s.takeSubmit r).req = some r := rfl
@[simp] theorem State.takeSubmit_rsp (s : State) (r : Request) : (s.takeSubmit r).rsp = none := rfl
@[simp] theorem State.takeSubmit_turns (s : State) (r : Request) : (s.takeSubmit r).turns = s.turns.tail := rfl
@[simp] theorem State.takeSubmit_lastRead (s : State) (r : Request) : (s.takeSubmit r).lastRead = s.lastRead := rfl

@[simp] theorem State.takeReset_phase (s : State) : (s.takeReset).phase = .idle := rfl
@[simp] theorem State.takeReset_req (s : State) : (s.takeReset).req = none := rfl
@[simp] theorem State.takeReset_rsp (s : State) : (s.takeReset).rsp = none := rfl
@[simp] theorem State.takeReset_turns (s : State) : (s.takeReset).turns = s.turns.tail := rfl
@[simp] theorem State.takeReset_lastRead (s : State) : (s.takeReset).lastRead = s.lastRead := rfl

@[simp] theorem State.passTurn_phase (s : State) : s.passTurn.phase = s.phase := by
  unfold State.passTurn; split <;> rfl
@[simp] theorem State.passTurn_req (s : State) : s.passTurn.req = s.req := by
  unfold State.passTurn; split <;> rfl
@[simp] theorem State.passTurn_rsp (s : State) : s.passTurn.rsp = s.rsp := by
  unfold State.passTurn; split <;> rfl
@[simp] theorem State.passTurn_lastRead (s : State) : s.passTurn.lastRead = s.lastRead := by
  unfold State.passTurn; split <;> rfl

/-- Which turns are left after the block's turn has passed: only a turn of the block's own is used up. -/
theorem State.passTurn_turns (s : State) :
    (∃ t, s.turns = .complete :: t ∧ s.passTurn.turns = t) ∨ (s.turns.head? ≠ some .complete ∧ s.passTurn = s) := by
  unfold State.passTurn
  split
  · next t h => exact .inl ⟨t, h, by simp [h]⟩
  · next h =>
    refine .inr ⟨fun hh => ?_, rfl⟩
    cases ht : s.turns with
    | nil => simp [ht] at hh
    | cons a t => simp [ht] at hh; exact h t (by rw [ht, hh])

@[simp] theorem State.busy_complete (s : State) (x : Response) : (s.complete x).busy = false := rfl
@[simp] theorem State.busy_latch (s : State) (r : Request) : (s.latch r).busy = true := rfl
@[simp] theorem State.busy_clear (s : State) : s.clear.busy = false := rfl
@[simp] theorem State.busy_takeSubmit (s : State) (r : Request) : (s.takeSubmit r).busy = true := rfl
@[simp] theorem State.busy_takeReset (s : State) : s.takeReset.busy = false := rfl
@[simp] theorem State.rspValid_complete (s : State) (x : Response) : (s.complete x).rspValid = true := rfl
@[simp] theorem State.rspValid_latch (s : State) (r : Request) : (s.latch r).rspValid = false := rfl
@[simp] theorem State.rspValid_clear (s : State) : s.clear.rspValid = false := rfl
@[simp] theorem State.rspValid_takeSubmit (s : State) (r : Request) : (s.takeSubmit r).rspValid = false := rfl
@[simp] theorem State.rspValid_takeReset (s : State) : s.takeReset.rspValid = false := rfl
@[simp] theorem State.rspStatus_complete (s : State) (x : Response) : (s.complete x).rspStatus = some x.status := rfl
@[simp] theorem State.rspCorrected_complete (s : State) (x : Response) :
    (s.complete x).rspCorrected = some x.corrected := rfl

theorem State.busy_iff (s : State) : s.busy = true ↔ s.phase = .busy := by
  unfold State.busy; cases s.phase <;> simp

theorem State.not_busy_iff (s : State) : s.busy = false ↔ s.phase = .idle := by
  unfold State.busy; cases s.phase <;> simp

/-- The failure response, field by field (60_exceptions.md R202). -/
theorem Response.fail_eq (c : Status) : Response.fail c = failure c.code := rfl

theorem Response.okBytes_eq (bs : ByteSeq) :
    Response.okBytes bs = { status := 0x00#8, outBytes := bs, outSyms := [], outPkt := none, corrected := 0#16 } := rfl

theorem Response.okSyms_eq (ss : SymSeq) :
    Response.okSyms ss = { status := 0x00#8, outBytes := [], outSyms := ss, outPkt := none, corrected := 0#16 } := rfl

theorem Response.okDecoded_eq (bs : ByteSeq) (w : Nat) :
    Response.okDecoded bs w =
      { status := 0x00#8, outBytes := bs, outSyms := [], outPkt := none, corrected := BitVec.ofNat 16 w } := rfl

theorem Response.okPacket_eq (p : Packet) (w : Nat) :
    Response.okPacket p w =
      { status := 0x00#8, outBytes := [], outSyms := [], outPkt := some p, corrected := BitVec.ofNat 16 w } := rfl

end Sys2Proof.Machine
end

