-- ==== Sys2Proof/Laws/Ops.lean ====
section
/-!
SUPPORT. For each shared operation one lemma that says everything it can do: the checks and reads of an operation body, the
end of an operation, and the choice of who moves next.
-/

namespace Sys2Proof.Machine

open Sys2Proof Sys2Proof.Safety

/-- A check passes or fails with its status. -/
theorem failIf_eq (bad : Bool) (c : Status) :
    failIf bad c = if bad = true then .error (.status c) else .ok () := by
  cases bad <;> rfl

/-- The input limit (20_memory.md R42). -/
theorem checkLimit_eq (len limit : Nat) :
    checkLimit len limit = if limit < len then .error (.status .inputTooLong) else .ok () := by
  simp [checkLimit, failIf_eq, Nat.blt_eq]

/-- A check before the rest of an operation body (60_exceptions.md R203). -/
theorem failIf_bind {α : Type} (bad : Bool) (c : Status) (rest : Unit → Except Stop α) :
    (failIf bad c >>= rest) = if bad = true then .error (.status c) else rest () := by
  cases bad <;> rfl

/-- The input limit before the rest of an operation body (30_encoding.md R65). -/
theorem checkLimit_bind {α : Type} (len limit : Nat) (rest : Unit → Except Stop α) :
    (checkLimit len limit >>= rest) = if limit < len then .error (.status .inputTooLong) else rest () := by
  simp [checkLimit, failIf_bind, Nat.blt_eq]

/-- A read that answers, before the rest of an operation body. -/
theorem ok_bind {α β : Type} (a : α) (rest : α → Except Stop β) : (Except.ok a >>= rest) = rest a := rfl

/-- A read inside the input gives the elements, a read past its end faults (20_memory.md R41). -/
theorem memRead_eq {α : Type} (input : List α) (i n : Nat) :
    memRead input i n =
      if i + n ≤ input.length then .ok ((input.drop i).take n) else .error (.fault .readPastEnd) := by
  unfold memRead
  cases h : Nat.ble (i + n) input.length
  · rw [if_neg (fun hc => by rw [Nat.ble_eq_true_of_le hc] at h; cases h)]
  · rw [if_pos (Nat.le_of_ble_eq_true h)]

/-- A read of one element inside the input (20_memory.md R41). -/
theorem memReadOne_of_lt {α : Type} (input : List α) (i : Nat) (h : i < input.length) :
    memReadOne input i = .ok input[i] := by
  simp [memReadOne, List.getElem?_eq_getElem h]

/-- A read of one element past the end faults (20_memory.md R41). -/
theorem memReadOne_of_ge {α : Type} (input : List α) (i : Nat) (h : input.length ≤ i) :
    memReadOne input i = .error (.fault .readPastEnd) := by
  simp [memReadOne, List.getElem?_eq_none h]

@[simp] theorem finish_ok (x : Response) (s : State) : finish (.ok x) s = .next (s.complete x) := rfl
@[simp] theorem finish_status (c : Status) (s : State) :
    finish (.error (.status c)) s = .next (s.complete (Response.fail c)) := rfl
@[simp] theorem finish_fault (f : Fault) (s : State) : finish (.error (.fault f)) s = .fault f := rfl

/-- What the end of an operation can answer (10_state.md R27). -/
theorem finish_cases (e : Except Stop Response) (s : State) :
    (∃ x, e = .ok x ∧ finish e s = .next (s.complete x))
      ∨ (∃ c, e = .error (.status c) ∧ finish e s = .next (s.complete (Response.fail c)))
      ∨ (∃ f, e = .error (.fault f) ∧ finish e s = .fault f) := by
  rcases e with (_ | _) | x
  · exact .inr (.inl ⟨_, rfl, rfl⟩)
  · exact .inr (.inr ⟨_, rfl, rfl⟩)
  · exact .inl ⟨_, rfl, rfl⟩

/-- An operation without a fault answers one response whatever the state (10_state.md R29). -/
theorem finish_next (e : Except Stop Response) (h : ∀ f, e ≠ .error (.fault f)) :
    ∃ x, (e = .ok x ∨ ∃ c, e = .error (.status c) ∧ x = Response.fail c) ∧ ∀ s, finish e s = .next (s.complete x) := by
  rcases e with (c | f) | x
  · exact ⟨Response.fail c, .inr ⟨c, rfl, rfl⟩, fun _ => rfl⟩
  · exact absurd rfl (h f)
  · exact ⟨x, .inl rfl, fun _ => rfl⟩

/-! ### Who moves next -/

theorem State.nextAction_reset (s : State) (t : List Turn) (h : s.turns = .reset :: t) : s.nextAction = .reset := by
  unfold State.nextAction; rw [h]

/-- While BUSY, with no reset next, the block completes (70_reset_and_hazards.md R240, R241). -/
theorem State.nextAction_busy (s : State) (hp : s.phase = .busy) (hr : noResetNext s) : s.nextAction = .complete := by
  unfold State.nextAction
  rw [hp]
  unfold noResetNext at hr
  rcases ht : s.turns with _ | ⟨_ | _ | _ | _, _⟩ <;> simp_all

theorem State.nextAction_submit (s : State) (r : Request) (t : List Turn) (hp : s.phase = .idle)
    (h : s.turns = .submit r :: t) : s.nextAction = .submit r := by
  unfold State.nextAction; rw [h, hp]

theorem State.nextAction_read (s : State) (t : List Turn) (hp : s.phase = .idle) (h : s.turns = .read :: t) :
    s.nextAction = .read := by
  unfold State.nextAction; rw [h, hp]

theorem State.nextAction_wait (s : State) (hp : s.phase = .idle)
    (h : s.turns = [] ∨ ∃ t, s.turns = .complete :: t) : s.nextAction = .wait := by
  unfold State.nextAction
  rcases h with h | ⟨t, h⟩ <;> rw [h, hp]

/-- Everything the choice of the next mover can be. -/
theorem State.nextAction_cases (s : State) :
    (∃ t, s.turns = .reset :: t ∧ s.nextAction = .reset)
      ∨ (s.phase = .busy ∧ noResetNext s ∧ s.nextAction = .complete)
      ∨ (∃ r t, s.phase = .idle ∧ s.turns = .submit r :: t ∧ s.nextAction = .submit r)
      ∨ (∃ t, s.phase = .idle ∧ s.turns = .read :: t ∧ s.nextAction = .read)
      ∨ (s.phase = .idle ∧ (s.turns = [] ∨ ∃ t, s.turns = .complete :: t) ∧ s.nextAction = .wait) := by
  by_cases hr : ∃ t, s.turns = .reset :: t
  · obtain ⟨t, ht⟩ := hr
    exact .inl ⟨t, ht, s.nextAction_reset t ht⟩
  · have hn : noResetNext s := by
      intro h
      cases ht : s.turns with
      | nil => simp [ht] at h
      | cons a t => exact hr ⟨t, by simp [ht] at h; rw [ht, h]⟩
    cases hp : s.phase with
    | busy => exact .inr (.inl ⟨rfl, hn, s.nextAction_busy hp hn⟩)
    | idle =>
      rcases ht : s.turns with _ | ⟨r | _ | _ | _, t⟩
      · exact .inr (.inr (.inr (.inr ⟨rfl, .inl rfl, s.nextAction_wait hp (.inl ht)⟩)))
      · exact .inr (.inr (.inl ⟨r, t, rfl, rfl, s.nextAction_submit r t hp ht⟩))
      · exact .inr (.inr (.inr (.inl ⟨t, rfl, rfl, s.nextAction_read t hp ht⟩)))
      · exact .inr (.inr (.inr (.inr ⟨rfl, .inr ⟨t, rfl⟩, s.nextAction_wait hp (.inr ⟨t, ht⟩)⟩)))
      · exact absurd ⟨t, ht⟩ hr

end Sys2Proof.Machine
end

