-- ==== Sys2Proof/Laws/Operations.lean ====
section
/-!
SUPPORT. For each operation body, its checks and its result as one chain of conditions, in the order of 60_exceptions.md
R203.
-/

namespace Sys2Proof.Machine

open Sys2Proof Sys2Proof.Safety

/-! ### Each operation is the end of its body (30_encoding.md R63) -/

theorem exec_manEnc (bs : ByteSeq) (s : State) : exec (.manEnc bs) s = finish ((manEncOp bs).map Response.okSyms) s := rfl
theorem exec_manDec (ss : SymSeq) (cap : U16) (s : State) : exec (.manDec ss cap) s = finish ((manDecOp ss cap).map Response.okBytes) s := rfl
theorem exec_rsEnc (d : ByteSeq) (s : State) : exec (.rsEnc d) s = finish ((rsEncOp d).map Response.okBytes) s := rfl
theorem exec_rsDec (r : ByteSeq) (s : State) : exec (.rsDec r) s = finish ((rsDecOp r).map decodedResponse) s := rfl
theorem exec_fecEnc (b : ByteSeq) (s : State) : exec (.fecEnc b) s = finish ((fecEncOp b).map Response.okBytes) s := rfl
theorem exec_fecDec (b : ByteSeq) (s : State) : exec (.fecDec b) s = finish ((fecDecOp b).map decodedResponse) s := rfl
theorem exec_pfSer (p : Packet) (s : State) : exec (.pfSer p) s = finish ((pfSerOp p).map Response.okBytes) s := rfl
theorem exec_pfDes (b : ByteSeq) (s : State) : exec (.pfDes b) s = finish ((pfDesOp b).map packetResponse) s := rfl
theorem exec_txFrame (p : Packet) (s : State) : exec (.txFrame p) s = finish ((txFrameOp p).map Response.okSyms) s := rfl
theorem exec_rxFrame (ss : SymSeq) (s : State) : exec (.rxFrame ss) s = finish ((rxFrameOp ss).map receivedResponse) s := rfl

/-! ### Reading whole inputs without running past their end -/

/-- Whole pairs never run past the end of the input: they give one bit a pair, or an illegal pair fails the operation
(40_manchester.md R105, R106; 20_memory.md R41). -/
theorem pairBits_cases : ∀ (n : Nat) (ss : SymSeq), ss.length = 2 * n →
    (∃ bits, pairBits ss = .ok bits ∧ bits.length = n ∧ ss = manPairs bits)
      ∨ pairBits ss = .error (.status .manInvalidTransition)
  | 0, ss, h => by
    have : ss = [] := List.length_eq_zero_iff.mp (by omega)
    exact .inl ⟨[], by rw [this]; rfl, rfl, this⟩
  | n + 1, [], h => by simp at h
  | n + 1, [_], h => by simp at h; omega
  | n + 1, s0 :: s1 :: rest, h => by
    have ih := pairBits_cases n rest (by simp at h; omega)
    unfold pairBits
    cases hb : pairBit s0 s1 with
    | none => exact .inr rfl
    | some bit =>
      rcases ih with ⟨bits, hbits, hlen, hrest⟩ | herr
      · refine .inl ⟨bit :: bits, by simp [hbits, bind, Except.bind, pure, Except.pure], by simp [hlen], ?_⟩
        have : manPair bit = [s0, s1] := by
          cases s0 <;> cases s1 <;> simp [pairBit] at hb <;> subst hb <;> rfl
        simp [manPairs, this, ← hrest]
      · exact .inr (by simp [herr, bind, Except.bind])

/-- The bytes of whole 16-symbol cells: one byte a cell, or an illegal pair fails the operation (40_manchester.md R106). -/
theorem manDecodeBytes_cases : ∀ (n : Nat) (ss : SymSeq), 16 * n ≤ ss.length →
    (∃ bs, manDecodeBytes n ss = .ok bs ∧ bs.length = n)
      ∨ manDecodeBytes n ss = .error (.status .manInvalidTransition)
  | 0, _, _ => .inl ⟨[], rfl, rfl⟩
  | n + 1, ss, h => by
    have hr : memRead ss 0 16 = .ok (ss.take 16) := by
      rw [memRead_eq, if_pos (by omega), List.drop_zero]
    have hc := pairBits_cases 8 (ss.take 16) (by simp; omega)
    have ih := manDecodeBytes_cases n (ss.drop 16) (by simp; omega)
    unfold manDecodeBytes
    rcases hc with ⟨bits, hbits, -, -⟩ | herr
    · rcases ih with ⟨bs, hbs, hlen⟩ | herr
      · exact .inl ⟨_, by simp [hr, hbits, hbs, bind, Except.bind, pure, Except.pure]; rfl, by simp [hlen]⟩
      · exact .inr (by simp [hr, hbits, herr, bind, Except.bind])
    · exact .inr (by simp [hr, herr, bind, Except.bind])

/-! ### The checks of each operation, in order -/

/-- MAN_ENC (40_manchester.md R104). -/
theorem manEncOp_eq (bs : ByteSeq) :
    manEncOp bs = if 128 < bs.length then .error (.status .inputTooLong) else .ok (manEncode bs) := by
  unfold manEncOp
  rw [checkLimit_bind]
  rfl

/-- MAN_DEC (40_manchester.md R106). -/
theorem manDecOp_eq (ss : SymSeq) (cap : U16) :
    manDecOp ss cap =
      if 2048 < ss.length then .error (.status .inputTooLong)
      else if ss.length % 16 ≠ 0 then .error (.status .manInvalidLength)
      else if cap.toNat < ss.length / 16 then .error (.status .manBufferTooSmall)
      else manDecodeBytes (ss.length / 16) ss := by
  unfold manDecOp
  simp only [checkLimit_bind, failIf_bind, show Config.inSymsMax = 2048 from rfl, bne_iff_ne, Nat.blt_eq]

/-- RS_ENC (41_reed_solomon.md R130). -/
theorem rsEncOp_eq (d : ByteSeq) :
    rsEncOp d =
      if 128 < d.length then .error (.status .inputTooLong)
      else if d.length ≠ 24 then .error (.status .fecInvalidLength)
      else .ok (rsEncode d) := by
  unfold rsEncOp
  simp only [checkLimit_bind, failIf_bind, show Config.inBytesMax = 128 from rfl, show Config.rsK = 24 from rfl, bne_iff_ne]
  rfl

/-- RS_DEC (41_reed_solomon.md R131). -/
theorem rsDecOp_eq (r : ByteSeq) :
    rsDecOp r =
      if 128 < r.length then .error (.status .inputTooLong)
      else if r.length ≠ 32 then .error (.status .fecInvalidLength)
      else rsDecode r := by
  unfold rsDecOp
  simp only [checkLimit_bind, failIf_bind, show Config.inBytesMax = 128 from rfl, show Config.rsN = 32 from rfl, bne_iff_ne]

/-- FEC_ENC (41_reed_solomon.md R133). -/
theorem fecEncOp_eq (b : ByteSeq) :
    fecEncOp b =
      if 96 < b.length then .error (.status .inputTooLong) else .ok ((split b).flatMap rsEncode) := by
  unfold fecEncOp
  rw [checkLimit_bind]
  rfl

/-- FEC_DEC (41_reed_solomon.md R134). -/
theorem fecDecOp_eq (b : ByteSeq) :
    fecDecOp b =
      if 128 < b.length then .error (.status .inputTooLong)
      else if b.length % 32 ≠ 0 then .error (.status .fecInvalidLength)
      else fecDecodeBlocks (b.length / 32) b := by
  unfold fecDecOp
  simp only [checkLimit_bind, failIf_bind, show Config.inBytesMax = 128 from rfl, show Config.rsN = 32 from rfl, bne_iff_ne]

/-- PF_SER (42_framer.md R170). -/
theorem pfSerOp_eq (p : Packet) :
    pfSerOp p = if 64 < p.payload.length then .error (.status .framePayloadTooLarge) else .ok (frameOf p) := by
  unfold pfSerOp
  simp only [failIf_bind, show Config.maxPayload = 64 from rfl, Nat.blt_eq]
  rfl

/-- PF_DES, the checks in order and the packet (42_framer.md R171). -/
theorem pfDesOp_eq (b : ByteSeq) :
    pfDesOp b =
      if 128 < b.length then .error (.status .inputTooLong)
      else if b.length < 9 then .error (.status .frameTruncated)
      else if 64 < (b.getD 6 0#8).toNat then .error (.status .frameMalformed)
      else if b.length < 9 + (b.getD 6 0#8).toNat then .error (.status .frameTruncated)
      else if crc16 (b.take (7 + (b.getD 6 0#8).toNat))
          ≠ u16Of (b.getD (7 + (b.getD 6 0#8).toNat) 0#8) (b.getD (7 + (b.getD 6 0#8).toNat + 1) 0#8)
        then .error (.status .frameIntegrityMismatch)
      else if (b.getD 5 0#8).extractLsb' 2 6 ≠ 0#6 then .error (.status .frameMalformed)
      else .ok { senderId := u16Of (b.getD 0 0#8) (b.getD 1 0#8), receiverId := u16Of (b.getD 2 0#8) (b.getD 3 0#8),
                 sequence := b.getD 4 0#8, ack := (b.getD 5 0#8).getLsbD 0, retry := (b.getD 5 0#8).getLsbD 1,
                 payload := (b.drop 7).take (b.getD 6 0#8).toNat } := by
  have one : ∀ i, i < b.length → memReadOne b i = .ok (b.getD i 0#8) := fun i h => by
    rw [memReadOne_of_lt b i h, List.getD_eq_getElem _ _ h]
  unfold pfDesOp
  simp only [checkLimit_bind, failIf_bind, show Config.inBytesMax = 128 from rfl, show Config.hdrBytes = 7 from rfl,
    show Config.crcBytes = 2 from rfl, show Config.maxPayload = 64 from rfl, Nat.blt_eq, bne_iff_ne, Nat.reduceAdd]
  by_cases hi : 128 < b.length
  · rw [if_pos hi, if_pos hi]
  rw [if_neg hi, if_neg hi]
  by_cases h9 : b.length < 9
  · rw [if_pos h9, if_pos h9]
  rw [if_neg h9, if_neg h9, one 6 (by omega), ok_bind]
  generalize (b.getD 6 0#8).toNat = n
  by_cases h64 : 64 < n
  · rw [if_pos h64, if_pos h64]
  rw [if_neg h64, if_neg h64]
  by_cases hn : b.length < 9 + n
  · rw [if_pos hn, if_pos hn]
  rw [if_neg hn, if_neg hn]
  simp only [memRead_eq, one (7 + n) (by omega), one (7 + n + 1) (by omega), one 5 (by omega), one 0 (by omega),
    one 1 (by omega), one 2 (by omega), one 3 (by omega), one 4 (by omega), if_pos (show 0 + (7 + n) ≤ b.length by omega),
    if_pos (show 7 + n ≤ b.length by omega), List.drop_zero, ok_bind]
  rfl

/-- What a decoding that answers has checked: its data begins a code word within `RS_T` symbols of the received word, and
its count is the distance (41_reed_solomon.md R129). -/
theorem rsDecode_sound (r d : ByteSeq) (w : Nat) (h : rsDecode r = .ok (d, w)) :
    (isCodeword r = true ∧ d = r.take 24 ∧ w = 0)
      ∨ ∃ c, isCodeword c = true ∧ dist r c ≤ 4 ∧ d = c.take 24 ∧ w = dist r c := by
  unfold rsDecode at h
  split at h
  · next hc => cases h; exact .inl ⟨hc, rfl, rfl⟩
  · rcases hc : correct r with e | c
    · rw [hc] at h; cases h
    · simp only [hc, failIf_eq, bind, Except.bind] at h
      split at h
      · cases h
      · next hk =>
        split at hk
        · cases hk
        · next hg =>
          cases h
          simp [show Config.rsT = 4 from rfl] at hg
          exact .inr ⟨c, hg.1, hg.2, rfl, rfl⟩

/-- TX_FRAME, layer by layer (43_pipeline.md R190). -/
theorem txFrameOp_eq (p : Packet) :
    txFrameOp p =
      match pfSerOp p with
      | .error e => .error e
      | .ok f =>
        match fecEncOp f with
        | .error e => .error e
        | .ok e => manEncOp e := by
  unfold txFrameOp
  cases pfSerOp p with
  | error => rfl
  | ok f => cases h : fecEncOp f <;> simp [bind, Except.bind, h]

/-- RX_FRAME, layer by layer (43_pipeline.md R191). -/
theorem rxFrameOp_eq (ss : SymSeq) :
    rxFrameOp ss =
      match manDecOp ss 128#16 with
      | .error e => .error e
      | .ok a =>
        match fecDecOp a with
        | .error e => .error e
        | .ok (d, w) =>
          match pfDesOp d with
          | .error e => .error e
          | .ok p => .ok (p, w) := by
  unfold rxFrameOp
  rw [show BitVec.ofNat 16 Config.inBytesMax = 128#16 from rfl, show Config.inSymsMax = 2048 from rfl, checkLimit_eq]
  by_cases hl : 2048 < ss.length
  · simp [hl, manDecOp_eq, bind, Except.bind]
  · cases hm : manDecOp ss 128#16 with
    | error => simp [hl, bind, Except.bind]
    | ok a =>
      cases hf : fecDecOp a with
      | error => simp [hl, hf, bind, Except.bind]
      | ok x => cases hp : pfDesOp x.1 <;> simp [hl, hf, hp, bind, Except.bind, pure, Except.pure]

end Sys2Proof.Machine
end

