-- ==== Sys2Proof/Laws/PerInstr.lean ====
section
/-!
SUPPORT. A fact about every operation as syntax: the request it is encoded as is well formed, and decoding it gives the
operation back (30_encoding.md R60, R61).
-/

namespace Sys2Proof.Laws

open Sys2Proof

/-- The encoded request names an operation, and the fields the operation's format does not read are zero or empty. -/
def EncodesWithinFormat.Statement (i : Instr) : Prop :=
  (encode i).wellFormed = true
    ∧ (encode i).op = opcode i
    ∧ (i.format ≠ .byteInput → (encode i).inBytes = [])
    ∧ (i.format ≠ .symbolInput → (encode i).inSyms = [] ∧ (encode i).outCap = 0#16)
    ∧ (i.format ≠ .packetInput → (encode i).inPkt = Packet.blank)

theorem EncodesWithinFormat.manEnc (bs : ByteSeq) : EncodesWithinFormat.Statement (.manEnc bs) := by
  refine ⟨rfl, rfl, ?_, ?_, ?_⟩ <;> simp [Instr.format, encode, Request.ofOp]

theorem EncodesWithinFormat.manDec (ss : SymSeq) (cap : U16) : EncodesWithinFormat.Statement (.manDec ss cap) := by
  refine ⟨rfl, rfl, ?_, ?_, ?_⟩ <;> simp [Instr.format, encode, Request.ofOp]

theorem EncodesWithinFormat.rsEnc (bs : ByteSeq) : EncodesWithinFormat.Statement (.rsEnc bs) := by
  refine ⟨rfl, rfl, ?_, ?_, ?_⟩ <;> simp [Instr.format, encode, Request.ofOp]

theorem EncodesWithinFormat.rsDec (bs : ByteSeq) : EncodesWithinFormat.Statement (.rsDec bs) := by
  refine ⟨rfl, rfl, ?_, ?_, ?_⟩ <;> simp [Instr.format, encode, Request.ofOp]

theorem EncodesWithinFormat.fecEnc (bs : ByteSeq) : EncodesWithinFormat.Statement (.fecEnc bs) := by
  refine ⟨rfl, rfl, ?_, ?_, ?_⟩ <;> simp [Instr.format, encode, Request.ofOp]

theorem EncodesWithinFormat.fecDec (bs : ByteSeq) : EncodesWithinFormat.Statement (.fecDec bs) := by
  refine ⟨rfl, rfl, ?_, ?_, ?_⟩ <;> simp [Instr.format, encode, Request.ofOp]

theorem EncodesWithinFormat.pfSer (p : Packet) : EncodesWithinFormat.Statement (.pfSer p) := by
  refine ⟨rfl, rfl, ?_, ?_, ?_⟩ <;> simp [Instr.format, encode, Request.ofOp]

theorem EncodesWithinFormat.pfDes (bs : ByteSeq) : EncodesWithinFormat.Statement (.pfDes bs) := by
  refine ⟨rfl, rfl, ?_, ?_, ?_⟩ <;> simp [Instr.format, encode, Request.ofOp]

theorem EncodesWithinFormat.txFrame (p : Packet) : EncodesWithinFormat.Statement (.txFrame p) := by
  refine ⟨rfl, rfl, ?_, ?_, ?_⟩ <;> simp [Instr.format, encode, Request.ofOp]

theorem EncodesWithinFormat.rxFrame (ss : SymSeq) : EncodesWithinFormat.Statement (.rxFrame ss) := by
  refine ⟨rfl, rfl, ?_, ?_, ?_⟩ <;> simp [Instr.format, encode, Request.ofOp]

end Sys2Proof.Laws
end

