-- ==== Sys2Proof/Laws/Step.lean ====
section
/-!
SUPPORT. What one step of the machine can do: every agent's step and, for the block's, the operation its request names.
-/

namespace Sys2Proof.Machine

open Sys2Proof Sys2Proof.Safety

/-- Everything a step can be (10_state.md R26 to R28, 70_reset_and_hazards.md R230). -/
theorem step_cases (s : State) :
    (∃ t, s.turns = .reset :: t ∧ step s = .next s.takeReset)
      ∨ (s.phase = .busy ∧ noResetNext s ∧ step s = completeRequest s)
      ∨ (∃ r t, s.phase = .idle ∧ s.turns = .submit r :: t ∧ step s = .next (s.takeSubmit r))
      ∨ (∃ t, s.phase = .idle ∧ s.turns = .read :: t ∧ step s = s.takeRead)
      ∨ (s.phase = .idle ∧ (s.turns = [] ∨ ∃ t, s.turns = .complete :: t) ∧ step s = .next s.passTurn) := by
  rcases s.nextAction_cases with ⟨t, ht, ha⟩ | ⟨hp, hr, ha⟩ | ⟨r, t, hp, ht, ha⟩ | ⟨t, hp, ht, ha⟩ | ⟨hp, ht, ha⟩
  · exact .inl ⟨t, ht, by simp only [step, ha]⟩
  · exact .inr (.inl ⟨hp, hr, by simp only [step, ha]⟩)
  · exact .inr (.inr (.inl ⟨r, t, hp, ht, by simp only [step, ha]⟩))
  · exact .inr (.inr (.inr (.inl ⟨t, hp, ht, by simp only [step, ha]⟩)))
  · exact .inr (.inr (.inr (.inr ⟨hp, ht, by simp only [step, ha]⟩)))

/-- READ with a response present returns it and changes nothing in the block (10_state.md R28). -/
theorem takeRead_some (s : State) (x : Response) (h : s.rsp = some x) :
    s.takeRead = .next { s.dropTurn with lastRead := some x } := by
  unfold State.takeRead; rw [h]

/-- READ with no response present faults (10_state.md R28). -/
theorem takeRead_none (s : State) (h : s.rsp = none) : s.takeRead = .fault .readNoResponse := by
  unfold State.takeRead; rw [h]

/-- COMPLETE of a request that names an operation (10_state.md R27, 30_encoding.md R63). -/
theorem completeRequest_ok (s : State) (r : Request) (i : Instr) (hq : s.req = some r) (hd : decode r = .ok i) :
    completeRequest s = exec i s.passTurn := by
  simp only [completeRequest, hq, hd]

/-- COMPLETE of a request whose op names no operation (30_encoding.md R64). -/
theorem completeRequest_illegal (s : State) (r : Request) (e : DecodeError) (hq : s.req = some r)
    (hd : decode r = .error e) :
    completeRequest s = .next (s.passTurn.complete (Response.fail .illegalOp)) := by
  simp only [completeRequest, hq, hd, finishIllegal]

/-- The very next step after `withFetchWord` completes the word's request. -/
theorem step_withFetchWord (s : State) (nbits w : Nat) :
    step (s.withFetchWord nbits w) = completeRequest (s.withFetchWord nbits w) := by
  have ha : (s.withFetchWord nbits w).nextAction = .complete := by
    apply State.nextAction_busy
    · unfold State.withFetchWord State.latchTableWord; split <;> rfl
    · unfold State.withFetchWord State.latchTableWord noResetNext
      split
      · simp
      · next h =>
        intro hh
        cases ht : s.turns with
        | nil => simp [ht] at hh
        | cons a t => simp [ht] at hh; exact h t (by rw [ht, hh])
  simp only [step, ha]

end Sys2Proof.Machine
end

