-- ==== Sys2Proof/Tests/Slice0.lean ====
section
/-!
SUPPORT. Tests of single operations and steps against the vectors of spec/95_test_vectors.md and the words of
30_encoding.md R60, and for every statement with hypotheses a concrete state and operands that meet them.
-/

set_option Elab.async false

namespace Sys2Proof.Tests

open Sys2Proof Sys2Proof.Machine Sys2Proof.Safety

/-! ### Helpers -/

/-- The response an operation answers with, if it answers. -/
def responseOf (i : Instr) : Option Response :=
  match exec i State.reset with
  | .next t => t.rsp
  | _ => none

/-- The state after one step, if there is one. -/
def after (s : State) : Option State :=
  match step s with
  | .next t => some t
  | _ => none

/-- The fault of a step, if there is one. -/
def faultOf (s : State) : Option Fault :=
  match step s with
  | .fault f => some f
  | _ => none

/-- An IDLE state with no response and the given turns. -/
def idleWith (turns : List Turn) : State := { State.reset with turns := turns }

/-- A BUSY state with a latched request and the given turns. -/
def busyWith (r : Request) (turns : List Turn) : State := { State.reset.latch r with turns := turns }

/-- Packet of frame F1 (95_test_vectors.md section 2.4). -/
def packet1 : Packet :=
  { senderId := 0x0001#16, receiverId := 0x0002#16, sequence := 0#8, ack := false, retry := false,
    payload := [0x01#8, 0x02#8] }

/-- Frame F1 (95_test_vectors.md section 2.4). -/
def frame1 : ByteSeq :=
  [0x00#8, 0x01#8, 0x00#8, 0x02#8, 0x00#8, 0x00#8, 0x02#8, 0x01#8, 0x02#8, 0xA9#8, 0xF2#8]

/-- Code word W1 (95_test_vectors.md section 2.6, B1). -/
def codeWord1 : ByteSeq :=
  frame1 ++ rep 0#8 13 ++ [0x6A#8, 0x1D#8, 0x75#8, 0x3E#8, 0x05#8, 0x76#8, 0x2E#8, 0x38#8]

/-- W1 with four bytes changed, two of them those of 95_test_vectors.md section 2.6, X1. -/
def received1 : ByteSeq := (((codeWord1.set 3 0x42#8).set 29 0x77#8).set 5 0x80#8).set 31 0x39#8

/-- The data 01 .. 18 of the code word `cw` (95_test_vectors.md section 2.2, E2). -/
def dataE2 : ByteSeq :=
  [1#8, 2#8, 3#8, 4#8, 5#8, 6#8, 7#8, 8#8, 9#8, 10#8, 11#8, 12#8, 13#8, 14#8, 15#8, 16#8, 17#8, 18#8, 19#8, 20#8, 21#8,
   22#8, 23#8, 24#8]

/-- `cw` (95_test_vectors.md section 2.2, E2). -/
def codeWordE2 : ByteSeq := dataE2 ++ [0x92#8, 0xFF#8, 0xC2#8, 0xD6#8, 0xC1#8, 0xDF#8, 0xA7#8, 0xD8#8]

/-- The received word of 95_test_vectors.md section 2.3, RD7. -/
def receivedRD7 : ByteSeq :=
  ((((codeWordE2.set 0 0x10#8).set 7 0x2A#8).set 23 0x2B#8).set 30 0xE3#8).set 12 0x58#8

/-! ### Well-formedness: each check refuses an ill-formed term -/

theorem test_wellFormed_refuses_unknown_op : (Request.ofOp 0x03#8).wellFormed = false := by decide +kernel
theorem test_wellFormed_takes_known_op : (Request.ofOp 0x32#8).wellFormed = true := by decide +kernel
theorem test_valid_refuses_65_byte_payload : Packet.valid { packet1 with payload := rep 0#8 65 } = false := by decide +kernel
theorem test_valid_takes_64_byte_payload : Packet.valid { packet1 with payload := rep 0#8 64 } = true := by decide +kernel
theorem test_wellFormed_refuses_129_bytes : (Instr.manEnc (rep 0#8 129)).wellFormed = false := by decide +kernel
theorem test_wellFormed_refuses_97_fec_bytes : (Instr.fecEnc (rep 0#8 97)).wellFormed = false := by decide +kernel
theorem test_wellFormed_refuses_long_payload :
    (Instr.txFrame { packet1 with payload := rep 0#8 65 }).wellFormed = false := by decide +kernel
theorem test_responseWf_refuses_output_on_failure :
    responseWf { failure 0x10#8 with outBytes := [0#8] } = false := by decide +kernel
theorem test_responseWf_refuses_unknown_status : responseWf (failure 0x04#8) = false := by decide +kernel
theorem test_inv_refuses_busy_without_request : inv { State.reset with phase := .busy } = false := by decide +kernel

/-! ### Parameters and constants -/

/-- The constraints and derived values of 00_scope.md R6. -/
theorem test_parameter_constraints :
    1 ≤ Config.rsK ∧ Config.rsK < Config.rsN ∧ Config.rsN ≤ 255 ∧ (Config.rsN - Config.rsK) % 2 = 0
      ∧ Config.maxPayload ≤ 255 ∧ Config.maxFrame ≤ Config.maxBlocks * Config.rsK
      ∧ Config.maxFrame = 73 ∧ Config.maxBlocks = 4 ∧ Config.inBytesMax = 128 ∧ Config.inSymsMax = 2048
      ∧ Config.fecInMax = 96 ∧ Config.rsParityLen = 2 * Config.rsT := by decide +kernel

/-- The generator is the product of its eight linear factors (41_reed_solomon.md R125). -/
theorem test_generator_is_product_of_roots :
    ((List.range 8).foldl (fun g j => polyMul [1#8, gexp j] g) [1#8]) = Config.rsGenerator := by decide +kernel

/-- Products and inverses of 95_test_vectors.md section 2.2. -/
theorem test_gmul_vectors :
    gmul 0x80#8 0x02#8 = 0x1D#8 ∧ gmul 0x53#8 0xCA#8 = 0x8F#8 ∧ gmul 0x57#8 0x83#8 = 0x31#8
      ∧ gmul 0xFF#8 0xFF#8 = 0xE2#8 := by decide +kernel

theorem test_ginv_vector : ginv 0x53#8 = .ok 0x8C#8 ∧ ginv 0#8 = .error (.fault .inverseOfZero) := by decide +kernel

/-- Entries of the tables of 41_reed_solomon.md R122. -/
theorem test_exp_log_table : gexp 0x14 = 0xB4#8 ∧ glog 0x1D#8 = .ok 8 := by decide +kernel

/-- Check values of 42_framer.md R164. -/
theorem test_crc_check_values :
    crc16 [] = 0xFFFF#16
      ∧ crc16 [0x31#8, 0x32#8, 0x33#8, 0x34#8, 0x35#8, 0x36#8, 0x37#8, 0x38#8, 0x39#8] = 0x29B1#16 := by
  decide +kernel

/-- The packed form of 20_memory.md R44: A5's image is 99 66. -/
theorem test_packed_form : packSyms (manEncode [0xA5#8]) = some [0x99#8, 0x66#8] := by decide +kernel

/-! ### Decoding: the op bytes of 30_encoding.md R60, bit by bit -/

theorem test_decode_manEnc : decodeTableWord 8 0b00000001 = some (.manEnc []) := by decide +kernel
theorem test_decode_manDec : decodeTableWord 8 0b00000010 = some (.manDec [] 0#16) := by decide +kernel
theorem test_decode_rsEnc : decodeTableWord 8 0b00010001 = some (.rsEnc []) := by decide +kernel
theorem test_decode_rsDec : decodeTableWord 8 0b00010010 = some (.rsDec []) := by decide +kernel
theorem test_decode_fecEnc : decodeTableWord 8 0b00010011 = some (.fecEnc []) := by decide +kernel
theorem test_decode_fecDec : decodeTableWord 8 0b00010100 = some (.fecDec []) := by decide +kernel
theorem test_decode_pfSer : decodeTableWord 8 0b00100001 = some (.pfSer Packet.blank) := by decide +kernel
theorem test_decode_pfDes : decodeTableWord 8 0b00100010 = some (.pfDes []) := by decide +kernel
theorem test_decode_txFrame : decodeTableWord 8 0b00110001 = some (.txFrame Packet.blank) := by decide +kernel
theorem test_decode_rxFrame : decodeTableWord 8 0b00110010 = some (.rxFrame []) := by decide +kernel

/-- The illegal ops of 95_test_vectors.md section 3, O1 to O3. -/
theorem test_decode_illegal :
    [0x00, 0xFF, 0x03, 0x15, 0x20, 0x23, 0x30, 0x33, 0x7F].all (fun w => (decodeTableWord 8 w).isNone) = true := by
  decide +kernel

/-- Unit and function fields of an op (30_encoding.md R60). -/
theorem test_op_fields :
    opUnit 0x14#8 = 1#4 ∧ opFn 0x14#8 = 4#4 ∧ opUnit 0x32#8 = 3#4 ∧ opFn 0x32#8 = 2#4 := by decide +kernel

/-- A request with operands decodes to the operation with those its format names (30_encoding.md R61). -/
theorem test_decode_operands :
    decode { op := 0x02#8, inBytes := [7#8], inSyms := [true, false], inPkt := packet1, outCap := 5#16 }
      = .ok (.manDec [true, false] 5#16) := by decide +kernel

/-! ### Operations: vectors of 95_test_vectors.md sections 2 and 3 -/

/-- M3. -/
theorem test_manEnc_A5 : responseOf (.manEnc [0xA5#8]) = some (.okSyms (unpackSyms [0x99#8, 0x66#8])) := by
  decide +kernel
/-- M6. -/
theorem test_manEnc_two_bytes :
    responseOf (.manEnc [0x01#8, 0x02#8]) = some (.okSyms (unpackSyms [0x55#8, 0x56#8, 0x55#8, 0x59#8])) := by
  decide +kernel
/-- M10. -/
theorem test_manDec_A5 : responseOf (.manDec (unpackSyms [0x99#8, 0x66#8]) 1#16) = some (.okBytes [0xA5#8]) := by
  decide +kernel
/-- M13 and M14: no partial output, capacity before transitions. -/
theorem test_manDec_order :
    responseOf (.manDec (unpackSyms [0x99#8, 0x66#8, 0x55#8, 0x57#8]) 2#16) = some (failure 0x01#8)
      ∧ responseOf (.manDec (unpackSyms [0x99#8, 0x66#8, 0x55#8, 0x57#8]) 1#16) = some (failure 0x02#8) := by
  decide +kernel
/-- E2. -/
theorem test_rsEnc_E2 : responseOf (.rsEnc dataE2) = some (.okBytes codeWordE2) := by decide +kernel
/-- E6. -/
theorem test_rsEnc_short : responseOf (.rsEnc (rep 0#8 23)) = some (failure 0x11#8) := by decide +kernel
/-- RD2: one error, in the first byte. -/
theorem test_rsDec_one_error : responseOf (.rsDec (codeWordE2.set 0 0xFE#8)) = some (.okDecoded dataE2 1) := by
  decide +kernel
/-- RD7: five errors that are uncorrectable. -/
theorem test_rsDec_five_errors : responseOf (.rsDec receivedRD7) = some (failure 0x10#8) := by decide +kernel
/-- B1. -/
theorem test_fecEnc_B1 : responseOf (.fecEnc frame1) = some (.okBytes codeWord1) := by decide +kernel
/-- B9. -/
theorem test_fecEnc_long : responseOf (.fecEnc (rep 0#8 97)) = some (failure 0xF1#8) := by decide +kernel
/-- X1's word with two more errors: four in one block. -/
theorem test_fecDec_four_errors :
    responseOf (.fecDec received1) = some (.okDecoded (frame1 ++ rep 0#8 13) 4) := by decide +kernel
/-- X4 and X5. -/
theorem test_fecDec_lengths :
    responseOf (.fecDec []) = some (.okDecoded [] 0) ∧ responseOf (.fecDec (codeWordE2.take 31)) = some (failure 0x11#8) := by
  decide +kernel
/-- F1. -/
theorem test_pfSer_F1 : responseOf (.pfSer packet1) = some (.okBytes frame1) := by decide +kernel
/-- F5: both flags, big-endian fields. -/
theorem test_pfSer_F5 :
    responseOf (.pfSer { senderId := 0xABCD#16, receiverId := 0x1234#16, sequence := 0xFF#8, ack := true, retry := true,
                         payload := [0x00#8] })
      = some (.okBytes [0xAB#8, 0xCD#8, 0x12#8, 0x34#8, 0xFF#8, 0x03#8, 0x01#8, 0x00#8, 0xC8#8, 0x89#8]) := by
  decide +kernel
/-- S2: bytes after the frame are ignored. -/
theorem test_pfDes_S2 : responseOf (.pfDes (frame1 ++ rep 0#8 13)) = some (.okPacket packet1 0) := by decide +kernel
/-- S5 and S8: the length byte before the length, the reserved flags after the CRC. -/
theorem test_pfDes_malformed :
    responseOf (.pfDes (frame1.set 6 0x41#8)) = some (failure 0x23#8)
      ∧ responseOf (.pfDes [0x00#8, 0x01#8, 0x00#8, 0x02#8, 0x00#8, 0x04#8, 0x02#8, 0x01#8, 0x02#8, 0x63#8, 0x03#8])
          = some (failure 0x23#8) := by decide +kernel
/-- T1: the image of W1 (section 4.1). -/
theorem test_txFrame_T1 : responseOf (.txFrame packet1) = some (.okSyms (manEncode codeWord1)) := by decide +kernel
/-- T5. -/
theorem test_txFrame_long :
    responseOf (.txFrame { packet1 with payload := rep 0#8 65 }) = some (failure 0x20#8) := by decide +kernel
/-- RX1. -/
theorem test_rxFrame_T1 : responseOf (.rxFrame (manEncode codeWord1)) = some (.okPacket packet1 0) := by decide +kernel
/-- RX4 and RX5. -/
theorem test_rxFrame_short :
    responseOf (.rxFrame (unpackSyms [0x55#8, 0x55#8])) = some (failure 0x11#8)
      ∧ responseOf (.rxFrame []) = some (failure 0x21#8) := by decide +kernel

/-! ### The port: 95_test_vectors.md section 3, O4 to O9 -/

/-- O5: the op is checked before the length. -/
theorem test_illegal_op_before_length :
    (after (busyWith { Request.ofOp 0x7F#8 with inBytes := rep 0#8 129 } [])).map State.rsp
      = some (some (failure 0xF0#8)) := by decide +kernel
/-- O6. -/
theorem test_read_after_reset_faults : faultOf (idleWith [.read]) = some .readNoResponse := by decide +kernel
/-- O7: the READ is held, and the block completes. -/
theorem test_read_while_busy_holds :
    after (busyWith (Request.ofOp 0x01#8) [.read])
      = some { State.reset with rsp := some (.okSyms []), turns := [.read] } := by decide +kernel
/-- O8. -/
theorem test_reset_abandons_request : after (busyWith (Request.ofOp 0x01#8) [.reset]) = some State.reset := by decide +kernel
/-- O9. -/
theorem test_read_is_not_destructive :
    after { State.reset with rsp := some (failure 0x02#8), turns := [.read, .read] }
      = some { State.reset with rsp := some (failure 0x02#8), turns := [.read], lastRead := some (failure 0x02#8) } := by
  decide +kernel
/-- A table word placed where the next step takes it runs (here PF.DES of no bytes). -/
theorem test_withFetchWord_runs :
    (after (State.reset.withFetchWord 8 0x22)).map State.rsp = some (some (failure 0x21#8)) := by decide +kernel

/-! ### Witnesses: states and operands that meet the statements' hypotheses -/

theorem witness_ResetEvent : (busyWith (Request.ofOp 0x01#8) [.reset]).turns = .reset :: [] := rfl

theorem witness_EveryStepKeepsTheInvariant :
    inv (busyWith (Request.ofOp 0x01#8) []) = true
      ∧ step (busyWith (Request.ofOp 0x01#8) []) = .next ((busyWith (Request.ofOp 0x01#8) []).complete (.okSyms [])) :=
  ⟨by decide +kernel, rfl⟩

theorem witness_OnlyAReadWithNoResponseFaults : inv (idleWith [.read]) = true ∧ inv (idleWith []) = true := by decide +kernel

theorem witness_EveryStatusInTheRaisedByColumnOccurs : 0x10#8 ∈ codesOf (.rxFrame []) ∧ 0xF1#8 ∈ codesOf (.manEnc []) := by
  decide +kernel

theorem witness_StepRunsTheLatchedOperation :
    (busyWith (Request.ofOp 0x11#8) [.complete, .reset]).phase = .busy
      ∧ (busyWith (Request.ofOp 0x11#8) [.complete, .reset]).req = some (Request.ofOp 0x11#8)
      ∧ decode (Request.ofOp 0x11#8) = .ok (.rsEnc [])
      ∧ noResetNext (busyWith (Request.ofOp 0x11#8) [.complete, .reset])
      ∧ (busyWith (Request.ofOp 0x11#8) [.complete, .reset]).turns = .complete :: [.reset] :=
  ⟨rfl, rfl, rfl, by simp [noResetNext, busyWith], rfl⟩

theorem witness_StepRunsTheLatchedOperation_held :
    noResetNext (busyWith (Request.ofOp 0x11#8) [.read])
      ∧ (busyWith (Request.ofOp 0x11#8) [.read]).turns.head? ≠ some .complete := by
  simp [noResetNext, busyWith]

theorem witness_IllegalOp :
    (busyWith (Request.ofOp 0x33#8) []).phase = .busy
      ∧ (busyWith (Request.ofOp 0x33#8) []).req = some (Request.ofOp 0x33#8)
      ∧ (Request.ofOp 0x33#8).op ∉ legalOps ∧ (Request.ofOp 0x00#8).op ∉ legalOps
      ∧ noResetNext (busyWith (Request.ofOp 0x33#8) []) :=
  ⟨rfl, rfl, by decide +kernel, by decide +kernel, by simp [noResetNext, busyWith]⟩

theorem witness_Submit :
    (idleWith [.submit (Request.ofOp 0x01#8)]).phase = .idle
      ∧ (idleWith [.submit (Request.ofOp 0x01#8)]).turns = .submit (Request.ofOp 0x01#8) :: [] := ⟨rfl, rfl⟩

theorem witness_RequesterHolds :
    inv (busyWith (Request.ofOp 0x01#8) [.read]) = true ∧ (busyWith (Request.ofOp 0x01#8) [.read]).phase = .busy
      ∧ (busyWith (Request.ofOp 0x01#8) [.read]).turns = .read :: []
      ∧ inv (busyWith (Request.ofOp 0x7F#8) [.submit (Request.ofOp 0x01#8)]) = true
      ∧ (busyWith (Request.ofOp 0x7F#8) [.submit (Request.ofOp 0x01#8)]).turns = .submit (Request.ofOp 0x01#8) :: [] :=
  ⟨by decide +kernel, rfl, rfl, by decide +kernel, rfl⟩

theorem witness_Read :
    (idleWith [.read]).phase = .idle ∧ (idleWith [.read]).turns = .read :: [] ∧ (idleWith [.read]).rsp = none
      ∧ ({ idleWith [.read] with rsp := some (failure 0x02#8) } : State).rsp = some (failure 0x02#8) := ⟨rfl, rfl, rfl, rfl⟩

theorem witness_SubmittedRequestIsAnsweredAndReadBack :
    (idleWith [.submit (Request.ofOp 0x01#8), .read]).phase = .idle
      ∧ (idleWith [.submit (Request.ofOp 0x01#8), .read]).turns = .submit (Request.ofOp 0x01#8) :: .read :: []
      ∧ decode (Request.ofOp 0x01#8) = .ok (.manEnc []) ∧ (Request.ofOp 0x7F#8).op ∉ legalOps :=
  ⟨rfl, rfl, rfl, by decide +kernel⟩

theorem witness_RequestAbandonedByReset :
    (idleWith [.submit (Request.ofOp 0x13#8), .reset, .read]).phase = .idle
      ∧ (idleWith [.submit (Request.ofOp 0x13#8), .reset, .read]).turns
          = .submit (Request.ofOp 0x13#8) :: .reset :: .read :: [] := ⟨rfl, rfl⟩

theorem witness_ResponseDependsOnlyOnTheFieldsRead :
    (busyWith { Request.ofOp 0x01#8 with inBytes := [5#8], outCap := 7#16 } []).phase = .busy
      ∧ (busyWith { Request.ofOp 0x01#8 with inBytes := [5#8] } [.read]).phase = .busy
      ∧ noResetNext (busyWith { Request.ofOp 0x01#8 with inBytes := [5#8], outCap := 7#16 } [])
      ∧ noResetNext (busyWith { Request.ofOp 0x01#8 with inBytes := [5#8] } [.read])
      ∧ agreeOnFieldsRead { Request.ofOp 0x01#8 with inBytes := [5#8], outCap := 7#16 }
          { Request.ofOp 0x01#8 with inBytes := [5#8] } := by
  refine ⟨rfl, rfl, ?_, ?_, ?_⟩ <;> simp [noResetNext, busyWith, agreeOnFieldsRead, Request.ofOp]

theorem witness_CompletionIsSignalled :
    inv (busyWith (Request.ofOp 0x01#8) []) = true
      ∧ (busyWith (Request.ofOp 0x01#8) []).rspValid = false ∧ (busyWith (Request.ofOp 0x01#8) []).busy = true
      ∧ (after (busyWith (Request.ofOp 0x01#8) [])).map State.rspValid = some true
      ∧ (after (busyWith (Request.ofOp 0x01#8) [])).map State.busy = some false := by decide +kernel

theorem witness_CompletionIsSignalled_by_reset :
    inv (busyWith (Request.ofOp 0x01#8) [.reset]) = true ∧ (busyWith (Request.ofOp 0x01#8) [.reset]).busy = true
      ∧ (after (busyWith (Request.ofOp 0x01#8) [.reset])).map State.busy = some false := by decide +kernel

theorem witness_CompletionIsSignalled_line :
    (State.reset.complete (.okSyms [])).rspValid = (State.reset.complete (failure 0x02#8)).rspValid
      ∧ State.reset.rspValid = (busyWith (Request.ofOp 0x01#8) []).rspValid := by decide +kernel

theorem witness_IdleBlockWaits : State.reset.phase = .idle ∧ State.reset.turns = [] := ⟨rfl, rfl⟩

theorem witness_DecodeIgnoresFieldsOutsideTheFormat :
    decode { Request.ofOp 0x14#8 with inBytes := [1#8] } = .ok (.fecDec [1#8])
      ∧ (Instr.fecDec [1#8]).format = .byteInput
      ∧ decode (Request.ofOp 0x02#8) = .ok (.manDec [] 0#16) ∧ (Instr.manDec [] 0#16).format = .symbolInput
      ∧ decode { Request.ofOp 0x31#8 with inPkt := packet1 } = .ok (.txFrame packet1)
      ∧ (Instr.txFrame packet1).format = .packetInput := ⟨rfl, rfl, rfl, rfl, rfl, rfl⟩

theorem witness_PackedSymbols : packSyms [true, false, false, true, true, false, false, true] = some [0x99#8] := by decide +kernel

theorem witness_ManEnc_lengths : (rep 0#8 128).length ≤ 128 ∧ 128 < (rep 0#8 129).length := by decide +kernel

theorem witness_ManDec_too_long : 2048 < (rep true 2049).length := by decide +kernel
theorem witness_ManDec_partial_byte : (rep true 2047).length ≤ 2048 ∧ (rep true 2047).length % 16 ≠ 0 := by decide +kernel
theorem witness_ManDec_capacity :
    (rep true 2048).length ≤ 2048 ∧ (rep true 2048).length % 16 = 0
      ∧ (127#16).toNat < (rep true 2048).length / 16 := by decide +kernel
theorem witness_ManDec_illegal_pair :
    (rep true 16).length ≤ 2048 ∧ (rep true 16).length % 16 = 0 ∧ (rep true 16).length / 16 ≤ (1#16).toNat
      ∧ ¬ pairsLegal (rep true 16) := by
  unfold pairsLegal; decide +kernel
theorem witness_ManDec_legal :
    (manEncode [0xA5#8]).length ≤ 2048 ∧ (manEncode [0xA5#8]).length % 16 = 0
      ∧ (manEncode [0xA5#8]).length / 16 ≤ (1#16).toNat ∧ pairsLegal (manEncode [0xA5#8])
      ∧ pairsLegal [] := by
  unfold pairsLegal; decide +kernel

theorem witness_ManchesterDecodeOfEncode : (rep 0#8 128).length ≤ 128 ∧ (rep 0#8 128).length ≤ (128#16).toNat := by decide +kernel

theorem witness_ManchesterImage :
    15 < 8 * ([0xA5#8, 0x3C#8] : ByteSeq).length ∧ 29 + 2 < (manEncode [0xA5#8, 0x3C#8]).length := by decide +kernel

theorem witness_ManDecDecodesEachPartAlone :
    (manEncode [0xA5#8]).length % 16 = 0 ∧ (manEncode [0x3C#8]).length % 16 = 0
      ∧ (manEncode [0xA5#8]).length + (manEncode [0x3C#8]).length ≤ 2048
      ∧ ((manEncode [0xA5#8]).length + (manEncode [0x3C#8]).length) / 16 ≤ (2#16).toNat
      ∧ responseOf (.manDec (manEncode [0xA5#8]) 2#16) = some (.okBytes [0xA5#8])
      ∧ responseOf (.manDec (manEncode [0x3C#8]) 2#16) = some (.okBytes [0x3C#8])
      ∧ responseOf (.manDec (rep true 16) 2#16) = some (failure 0x01#8) := by decide +kernel

theorem witness_AlphaIsPrimitive :
    glog 0x01#8 = .ok 0 ∧ glog 0x8E#8 = .ok 254 ∧ (0x01#8 : Byte) ≠ 0x00#8 ∧ 254 < 255 := by decide +kernel

theorem witness_PowersInverses :
    (0x02#8 : Byte) ≠ 0x00#8 ∧ 1 ≤ 254 ∧ ginv 0x02#8 = .ok 0x8E#8 := by decide +kernel

theorem witness_RsEncode :
    dataE2.length = 24 ∧ codeWordE2.length = 32 ∧ ∀ j, j < 8 → gevalHigh codeWordE2 (gpow 0x02#8 j) = 0x00#8 := by
  decide +kernel

theorem witness_DistinctCodeWords :
    isCodeword codeWordE2 = true ∧ isCodeword (rep 0#8 32) = true ∧ codeWordE2 ≠ rep 0#8 32
      ∧ (rep 0#8 32).length = 32 ∧ dist (rep 0#8 32) (rep 0#8 32) ≤ 4
      ∧ dist (rep 1#8 4 ++ rep 0#8 28) (rep 0#8 32) = 4 := by
  decide +kernel

theorem witness_RsEnc_lengths :
    128 < (rep 0#8 129).length ∧ (rep 0#8 25).length ≤ 128 ∧ (rep 0#8 25).length ≠ 24 ∧ (rep 0#8 24).length = 24 := by
  decide +kernel

theorem witness_RsDec_lengths :
    128 < (rep 0#8 129).length ∧ (rep 0#8 33).length ≤ 128 ∧ (rep 0#8 33).length ≠ 32 := by decide +kernel

theorem witness_RsDec_four_errors :
    received1.length = 32 ∧ isCodeword codeWord1 = true ∧ dist received1 codeWord1 = 4 := by decide +kernel

theorem witness_RsDecCorrects :
    dataE2.length = 24 ∧ (rep 1#8 4 ++ rep 0#8 28).length = 32 ∧ (rep 1#8 5 ++ rep 0#8 27).length = 32
      ∧ dist (rep 1#8 4 ++ rep 0#8 28) (List.replicate 32 0x00#8) ≤ 4
      ∧ 4 < dist (rep 1#8 5 ++ rep 0#8 27) (List.replicate 32 0x00#8) := by decide +kernel

theorem witness_FecEnc_lengths : 96 < (rep 0#8 97).length ∧ (rep 0#8 96).length ≤ 96 := by decide +kernel

theorem witness_FecDec_lengths :
    128 < (rep 0#8 129).length ∧ (rep 0#8 127).length ≤ 128 ∧ (rep 0#8 127).length % 32 ≠ 0
      ∧ (rep 0#8 128).length ≤ 128 ∧ (rep 0#8 128).length % 32 = 0 := by decide +kernel

theorem witness_FecDec_blocks :
    (received1 ++ rep 0#8 32).length ≤ 128 ∧ (received1 ++ rep 0#8 32).length = 32 * [codeWord1, rep 0#8 32].length
      ∧ ∀ j, j < 2 → isCodeword ([codeWord1, rep 0#8 32].getD j []) = true
          ∧ dist (word (received1 ++ rep 0#8 32) j) ([codeWord1, rep 0#8 32].getD j []) ≤ 4 := by decide +kernel

theorem witness_FecBlocksAreIndependent :
    (rep 0#8 24).length % 24 = 0 ∧ (rep 0#8 72).length % 24 = 0 ∧ (rep 0#8 24).length + (rep 0#8 72).length ≤ 96
      ∧ (rep 0#8 32).length % 32 = 0 ∧ receivedRD7.length % 32 = 0 ∧ receivedRD7.length + (rep 0#8 32).length ≤ 128
      ∧ responseOf (.fecDec (rep 0#8 32)) = some (.okDecoded (rep 0#8 24) 0) := by decide +kernel

theorem witness_PfSer : 64 < (rep 0#8 65).length ∧ ({ packet1 with payload := rep 0#8 64 } : Packet).payload.length ≤ 64 := by
  decide +kernel

theorem witness_PfDes_long : 128 < (rep 0#8 129).length ∧ ((rep 0#8 129).getD 6 0#8).toNat = 0 := by decide +kernel
theorem witness_PfDes_short : (frame1.take 8).length < 9 := by decide +kernel
theorem witness_PfDes_length_byte :
    9 ≤ (frame1.set 6 65#8).length ∧ (frame1.set 6 65#8).length ≤ 128 ∧ 64 < ((frame1.set 6 65#8).getD 6 0#8).toNat := by
  decide +kernel
theorem witness_PfDes_truncated :
    9 ≤ (frame1.take 10).length ∧ ((frame1.take 10).getD 6 0#8).toNat ≤ 64
      ∧ (frame1.take 10).length < 9 + ((frame1.take 10).getD 6 0#8).toNat := by decide +kernel
theorem witness_PfDes_mismatch :
    ((frame1.set 7 0#8).getD 6 0#8).toNat = 2 ∧ 9 + 2 ≤ (frame1.set 7 0#8).length
      ∧ crc16 ((frame1.set 7 0#8).take 9) ≠ (frame1.set 7 0#8).getD 9 0#8 ++ (frame1.set 7 0#8).getD 10 0#8 := by
  decide +kernel

/-- S8's frame. -/
def frameS8 : ByteSeq :=
  [0x00#8, 0x01#8, 0x00#8, 0x02#8, 0x00#8, 0x04#8, 0x02#8, 0x01#8, 0x02#8, 0x63#8, 0x03#8]

theorem witness_PfDes_reserved_flags :
    (frameS8.getD 6 0#8).toNat = 2 ∧ 9 + 2 ≤ frameS8.length
      ∧ crc16 (frameS8.take 9) = frameS8.getD 9 0#8 ++ frameS8.getD 10 0#8
      ∧ (frameS8.getD 5 0#8).extractLsb' 2 6 ≠ 0#6 := by decide +kernel
theorem witness_PfDes_good :
    (frame1.getD 6 0#8).toNat = 2 ∧ 9 + 2 ≤ frame1.length ∧ frame1.length ≤ 128
      ∧ crc16 (frame1.take 9) = frame1.getD 9 0#8 ++ frame1.getD 10 0#8
      ∧ (frame1.getD 5 0#8).extractLsb' 2 6 = 0#6 := by decide +kernel

theorem witness_FramerRoundTrip_forth :
    packet1.payload.length ≤ 64 ∧ 9 + packet1.payload.length + (rep 0#8 117).length ≤ 128 := by decide +kernel

theorem witness_FramerRoundTrip_back :
    (∀ s : State, exec (.pfDes frame1) s = .next (s.complete (.okPacket packet1 0)))
      ∧ (Response.okPacket packet1 0).outPkt = some packet1 := by
  have h : pfDesOp frame1 = .ok packet1 := by decide +kernel
  exact ⟨fun s => by simp only [exec, execPfDes, h]; rfl, rfl⟩

theorem witness_OneBitChange :
    packet1.payload.length ≤ 64 ∧ 87 < 8 * (9 + packet1.payload.length) ∧ 87 / 8 ≠ 6 ∧ 47 / 8 ≠ 6 ∧ 56 / 8 ≠ 6 := by decide +kernel

theorem witness_RxFrame_lengths : 2048 < (rep true 2049).length ∧ (rep true 2048).length ≤ 2048 := by decide +kernel

theorem witness_RxFrame_layers :
    responseOf (.rxFrame (rep true 16)) = some (failure 0x01#8)
      ∧ responseOf (.rxFrame (manEncode [0#8])) = some (failure 0x11#8)
      ∧ responseOf (.rxFrame (manEncode (rep 0#8 32))) = some (failure 0x22#8) := by decide +kernel

/-- Four bytes of the code word of packet 1 changed on the wire, every pair legal. -/
theorem witness_RxFrameReceives_corrupted :
    packet1.payload.length ≤ 64
      ∧ (manEncode received1).length = (manEncode codeWord1).length ∧ pairsLegal (manEncode received1)
      ∧ bytesChanged (manEncode codeWord1) (manEncode received1) 0 32 = 4
      ∧ (manEncode received1).length / 512 = 1 := by
  unfold pairsLegal; decide +kernel

/-- One symbol of the wire image of packet 1 changed: an illegal pair. -/
theorem witness_RxFrameReceives_illegal_pair :
    ((manEncode codeWord1).set 0 true).length = (manEncode codeWord1).length
      ∧ ¬ pairsLegal ((manEncode codeWord1).set 0 true) := by
  unfold pairsLegal; decide +kernel

theorem witness_WireImage :
    packet1.payload.length ≤ 64 ∧ 1 = (9 + packet1.payload.length + 23) / 24
      ∧ 4 = (9 + ({ packet1 with payload := rep 0#8 64 } : Packet).payload.length + 23) / 24 := by decide +kernel

end Sys2Proof.Tests
end

section
/-!
PROOFS. The Manchester codec (40_manchester.md): the image of a byte sequence is the pairs of its bits, so what MAN.ENC
sends and what MAN.DEC answers are read off the bit sequence `unpackSyms`.
-/

namespace Sys2Proof.Manchester

open Sys2Proof Sys2Proof.Machine Sys2Proof.Safety

/-! ### The pairs of a bit sequence -/

@[simp] theorem manPairs_nil : manPairs [] = [] := rfl

@[simp] theorem manPairs_cons (bit : Bool) (bits : List Bool) :
    manPairs (bit :: bits) = bit :: (!bit) :: manPairs bits := by
  cases bit <;> rfl

@[simp] theorem length_manPairs (bits : List Bool) : (manPairs bits).length = 2 * bits.length := by
  induction bits with
  | nil => rfl
  | cons bit bits ih => simp [ih]; omega

theorem manPairs_append (u v : List Bool) : manPairs (u ++ v) = manPairs u ++ manPairs v := by
  induction u with
  | nil => rfl
  | cons bit u ih => simp [ih]

/-- The first symbol of a cell is its bit (40_manchester.md R100). -/
theorem getElem?_manPairs_even (bits : List Bool) (i : Nat) : (manPairs bits)[2 * i]? = bits[i]? := by
  induction bits generalizing i with
  | nil => rfl
  | cons bit bits ih =>
    cases i with
    | zero => simp
    | succ i => simp [Nat.mul_succ, ih]

/-- The second symbol of a cell is the complement of its bit (40_manchester.md R100). -/
theorem getElem?_manPairs_odd (bits : List Bool) (i : Nat) : (manPairs bits)[2 * i + 1]? = bits[i]?.map not := by
  induction bits generalizing i with
  | nil => rfl
  | cons bit bits ih =>
    cases i with
    | zero => simp
    | succ i => simp [Nat.mul_succ, ih]

/-- Every bit cell has its transition in the middle (40_manchester.md R108). -/
theorem manPairs_cell_ne (bits : List Bool) (i : Nat) (h : i < bits.length) :
    (manPairs bits)[2 * i]? ≠ (manPairs bits)[2 * i + 1]? := by
  rw [getElem?_manPairs_even, getElem?_manPairs_odd, List.getElem?_eq_getElem h]
  simp

/-- Each pair holds one symbol of either value (40_manchester.md R108). -/
theorem count_manPairs (sym : Sym) (bits : List Bool) : (manPairs bits).count sym = bits.length := by
  induction bits with
  | nil => rfl
  | cons bit bits ih => cases bit <;> cases sym <;> simp [ih]

/-- Three consecutive symbols hold a whole cell, so they are not all equal (40_manchester.md R108). -/
theorem manPairs_no_run_of_three (bits : List Bool) (k : Nat) (h : k + 2 < (manPairs bits).length) :
    ¬ ((manPairs bits)[k]? = (manPairs bits)[k + 1]? ∧ (manPairs bits)[k + 1]? = (manPairs bits)[k + 2]?) := by
  rintro ⟨hfirst, hsecond⟩
  rw [length_manPairs] at h
  rcases Nat.even_or_odd' k with ⟨i, rfl | rfl⟩
  · exact manPairs_cell_ne bits i (by omega) hfirst
  · exact manPairs_cell_ne bits (i + 1) (by omega) hsecond

theorem pairsLegal_manPairs (bits : List Bool) : pairsLegal (manPairs bits) := fun i h =>
  manPairs_cell_ne bits i (by rw [length_manPairs] at h; omega)

theorem eq_not_and_pairsLegal_of_cons_cons (s0 s1 : Sym) (rest : SymSeq) (h : pairsLegal (s0 :: s1 :: rest)) :
    s1 = (!s0) ∧ pairsLegal rest := by
  constructor
  · have hcell := h 0 (by simp)
    cases s0 <;> cases s1 <;> simp_all
  · intro i hi
    have hcell := h (i + 1) (by simp; omega)
    simpa [Nat.mul_succ] using hcell

/-- Legal pairs are the pairs of some bits (40_manchester.md R100). -/
theorem exists_manPairs_of_pairsLegal : ∀ (n : Nat) (ss : SymSeq), ss.length = 2 * n → pairsLegal ss →
    ∃ bits, bits.length = n ∧ manPairs bits = ss
  | 0, ss, hlen, _ => ⟨[], rfl, (List.length_eq_zero_iff.mp hlen).symm⟩
  | n + 1, [], hlen, _ => by simp at hlen
  | n + 1, [_], hlen, _ => by simp at hlen; omega
  | n + 1, s0 :: s1 :: rest, hlen, hlegal => by
    obtain ⟨hs1, hrest⟩ := eq_not_and_pairsLegal_of_cons_cons s0 s1 rest hlegal
    obtain ⟨bits, hbits, himage⟩ := exists_manPairs_of_pairsLegal n rest (by simp at hlen; omega) hrest
    exact ⟨s0 :: bits, by simp [hbits], by rw [manPairs_cons, himage, hs1]⟩

/-- The first pair decodes to its first symbol; an illegal one fails the operation (40_manchester.md R105, R106). -/
theorem pairBits_cons_cons (s0 s1 : Sym) (rest : SymSeq) :
    pairBits (s0 :: s1 :: rest) =
      if s1 = !s0 then (pairBits rest).map (s0 :: ·) else .error (.status .manInvalidTransition) := by
  cases s0 <;> cases s1 <;> cases h : pairBits rest <;>
    simp [pairBits, pairBit, failWith, h, Except.map, bind, Except.bind, pure, Except.pure]

/-- The pairs decode to `bits` exactly when they are the pairs of `bits` (40_manchester.md R103, R105). -/
theorem pairBits_eq_ok_iff : ∀ (ss : SymSeq) (bits : List Bool), pairBits ss = .ok bits ↔ manPairs bits = ss
  | [], bits => by cases bits <;> simp [pairBits]
  | [_], bits => by cases bits <;> simp [pairBits]
  | s0 :: s1 :: rest, [] => by
    rw [pairBits_cons_cons]
    split <;> cases pairBits rest <;> simp [Except.map]
  | s0 :: s1 :: rest, bit :: bits => by
    have hcons : manPairs (bit :: bits) = s0 :: s1 :: rest ↔ bit = s0 ∧ (!bit) = s1 ∧ manPairs bits = rest := by
      simp
    rw [pairBits_cons_cons, hcons, ← pairBits_eq_ok_iff rest bits]
    by_cases hpair : s1 = !s0
    · subst hpair
      cases pairBits rest <;> simp [Except.map, eq_comm]
    · rw [if_neg hpair]
      refine ⟨nofun, ?_⟩
      rintro ⟨rfl, rfl, -⟩
      exact absurd rfl hpair

/-! ### The bits of a byte sequence -/

theorem length_unpackSyms (bs : ByteSeq) : (unpackSyms bs).length = 8 * bs.length := by
  induction bs with
  | nil => rfl
  | cons b bs ih => simp [unpackSyms, bitsMsbFirst, ih]; omega

theorem unpackSyms_append (a b : ByteSeq) : unpackSyms (a ++ b) = unpackSyms a ++ unpackSyms b := by
  induction a with
  | nil => rfl
  | cons x a ih => simp [unpackSyms, ih]

theorem getElem?_bitsMsbFirst (b : Byte) (i : Nat) (h : i < 8) : (bitsMsbFirst b)[i]? = some (b.getLsbD (7 - i)) := by
  interval_cases i <;> rfl

/-- Bit `8j + i` of a byte sequence is bit `7 − i` of byte `j` (20_memory.md R44, 40_manchester.md R102). -/
theorem getElem?_unpackSyms (bs : ByteSeq) (j i : Nat) (b : Byte) (hb : bs[j]? = some b) (hi : i < 8) :
    (unpackSyms bs)[8 * j + i]? = some (b.getLsbD (7 - i)) := by
  induction bs generalizing j with
  | nil => simp at hb
  | cons x bs ih =>
    have hlen : (bitsMsbFirst x).length = 8 := rfl
    cases j with
    | zero =>
      obtain rfl : x = b := by simpa using hb
      rw [unpackSyms, List.getElem?_append_left (by omega), Nat.mul_zero, Nat.zero_add, getElem?_bitsMsbFirst x i hi]
    | succ j =>
      rw [unpackSyms, List.getElem?_append_right (by omega), hlen, show 8 * (j + 1) + i - 8 = 8 * j + i by omega]
      exact ih j (by simpa using hb)

theorem byteOfBits_bitsMsbFirst (b : Byte) : byteOfBits 0#8 (bitsMsbFirst b) = b := by
  revert b; decide +kernel

theorem bitsMsbFirst_byteOfBits (bits : List Bool) (h : bits.length = 8) :
    bitsMsbFirst (byteOfBits 0#8 bits) = bits := by
  match bits, h with
  | [a, b, c, d, e, f, g, k], _ =>
    revert a b c d e f g k; decide +kernel

/-- Whole groups of eight bits are the bits of some bytes. -/
theorem exists_unpackSyms : ∀ (n : Nat) (bits : List Bool), bits.length = 8 * n →
    ∃ bs, bs.length = n ∧ unpackSyms bs = bits
  | 0, bits, h => ⟨[], rfl, (List.length_eq_zero_iff.mp h).symm⟩
  | n + 1, bits, h => by
    obtain ⟨bs, hlen, hbs⟩ := exists_unpackSyms n (bits.drop 8) (by simp; omega)
    refine ⟨byteOfBits 0#8 (bits.take 8) :: bs, by simp [hlen], ?_⟩
    rw [unpackSyms, bitsMsbFirst_byteOfBits _ (by simp; omega), hbs, List.take_append_drop]

/-! ### The image of a byte sequence -/

/-- The image of a byte sequence is the pairs of its bits (40_manchester.md R102, R103). -/
theorem manEncode_eq_manPairs (bs : ByteSeq) : manEncode bs = manPairs (unpackSyms bs) := by
  induction bs with
  | nil => rfl
  | cons b bs ih => rw [manEncode, unpackSyms, manPairs_append, ih, manByte]

theorem length_manEncode (bs : ByteSeq) : (manEncode bs).length = 16 * bs.length := by
  rw [manEncode_eq_manPairs, length_manPairs, length_unpackSyms]; omega

/-- The concatenation law of 40_manchester.md R108. -/
theorem manEncode_append (a b : ByteSeq) : manEncode (a ++ b) = manEncode a ++ manEncode b := by
  simp only [manEncode_eq_manPairs, unpackSyms_append, manPairs_append]

theorem isManchesterImage_manEncode (bs : ByteSeq) : isManchesterImage bs (manEncode bs) := by
  refine ⟨length_manEncode bs, fun j i b hb hi => ?_⟩
  have hbit := getElem?_unpackSyms bs j i b hb hi
  rw [manEncode_eq_manPairs, show 16 * j + 2 * i = 2 * (8 * j + i) by omega, getElem?_manPairs_even,
    getElem?_manPairs_odd, hbit]
  exact ⟨rfl, rfl⟩

/-- Whole bytes of symbols are an image exactly when every pair is legal (40_manchester.md R100). -/
theorem pairsLegal_iff_exists_manEncode (ss : SymSeq) (n : Nat) (hlen : ss.length = 16 * n) :
    pairsLegal ss ↔ ∃ bs, manEncode bs = ss := by
  constructor
  · intro hlegal
    obtain ⟨bits, hbits, rfl⟩ := exists_manPairs_of_pairsLegal (8 * n) ss (by omega) hlegal
    obtain ⟨bs, -, rfl⟩ := exists_unpackSyms n bits hbits
    exact ⟨bs, manEncode_eq_manPairs bs⟩
  · rintro ⟨bs, rfl⟩
    rw [manEncode_eq_manPairs]
    exact pairsLegal_manPairs _

/-! ### Decoding -/

/-- Decoding byte by byte: the first 16 symbols give one byte, the rest the others (40_manchester.md R105, R106). -/
theorem manDecodeBytes_succ_eq_ok_iff (n : Nat) (ss : SymSeq) (bs : ByteSeq) (hlen : 16 ≤ ss.length) :
    manDecodeBytes (n + 1) ss = .ok bs ↔
      ∃ bits rest, manPairs bits = ss.take 16 ∧ manDecodeBytes n (ss.drop 16) = .ok rest
        ∧ byteOfBits 0#8 bits :: rest = bs := by
  have hcell : memRead ss 0 16 = .ok (ss.take 16) := by
    rw [memRead_eq, if_pos (by omega), List.drop_zero]
  simp only [← pairBits_eq_ok_iff]
  rw [manDecodeBytes, hcell, ok_bind]
  cases pairBits (ss.take 16) with
  | error e => simp [bind, Except.bind]
  | ok bits => cases manDecodeBytes n (ss.drop 16) <;> simp [bind, Except.bind, pure, Except.pure]

/-- Decoding whole bytes answers `bs` exactly when the symbols are the image of `bs` (40_manchester.md R106, R107). -/
theorem manDecodeBytes_eq_ok_iff (n : Nat) (ss : SymSeq) (bs : ByteSeq) (hlen : ss.length = 16 * n) :
    manDecodeBytes n ss = .ok bs ↔ manEncode bs = ss := by
  induction n generalizing ss bs with
  | zero =>
    obtain rfl : ss = [] := List.length_eq_zero_iff.mp hlen
    cases bs <;> simp [manDecodeBytes, manEncode, manByte, bitsMsbFirst]
  | succ n ih =>
    rw [manDecodeBytes_succ_eq_ok_iff n ss bs (by omega)]
    constructor
    · rintro ⟨bits, rest, hcell, hrest, rfl⟩
      have hbits : bits.length = 8 := by
        have := congrArg List.length hcell
        rw [length_manPairs, List.length_take] at this
        omega
      rw [manEncode, manByte, bitsMsbFirst_byteOfBits bits hbits, hcell,
        (ih (ss.drop 16) rest (by simp; omega)).mp hrest, List.take_append_drop]
    · rintro rfl
      cases bs with
      | nil => simp [manEncode] at hlen
      | cons b bs =>
        have hbyte : (manByte b).length = 16 := length_manPairs _
        refine ⟨bitsMsbFirst b, bs, (List.take_left' hbyte).symm, ?_, by rw [byteOfBits_bitsMsbFirst]⟩
        rw [manEncode] at hlen ⊢
        rw [List.drop_left' hbyte]
        exact (ih (manEncode bs) bs (by rw [List.length_append] at hlen; omega)).mpr rfl

/-- Past the length and capacity checks MAN_DEC is the decoding of its bytes (40_manchester.md R106). -/
theorem manDecOp_of_fits (ss : SymSeq) (cap : U16) (hlimit : ss.length ≤ 2048) (hwhole : ss.length % 16 = 0)
    (hcap : ss.length / 16 ≤ cap.toNat) : manDecOp ss cap = manDecodeBytes (ss.length / 16) ss := by
  rw [manDecOp_eq, if_neg (by omega), if_neg (by omega), if_neg (by omega)]

/-- An image that fits decodes to its bytes (40_manchester.md R107). -/
theorem manDecOp_manEncode (bs : ByteSeq) (cap : U16) (hlimit : bs.length ≤ 128) (hcap : bs.length ≤ cap.toNat) :
    manDecOp (manEncode bs) cap = .ok bs := by
  have hlen := length_manEncode bs
  rw [manDecOp_of_fits _ cap (by omega) (by omega) (by omega)]
  exact (manDecodeBytes_eq_ok_iff _ _ bs (by omega)).mpr rfl

/-- Symbols that fit and hold an illegal pair fail with the transition status (40_manchester.md R106). -/
theorem manDecOp_of_not_pairsLegal (ss : SymSeq) (cap : U16) (hlimit : ss.length ≤ 2048) (hwhole : ss.length % 16 = 0)
    (hcap : ss.length / 16 ≤ cap.toNat) (hillegal : ¬ pairsLegal ss) :
    manDecOp ss cap = .error (.status .manInvalidTransition) := by
  rw [manDecOp_of_fits ss cap hlimit hwhole hcap]
  refine (manDecodeBytes_cases (ss.length / 16) ss (by omega)).resolve_left ?_
  rintro ⟨bs, hbs, -⟩
  have himage := (manDecodeBytes_eq_ok_iff _ ss bs (by omega)).mp hbs
  exact hillegal ((pairsLegal_iff_exists_manEncode ss (ss.length / 16) (by omega)).mpr ⟨bs, himage⟩)

/-! ### The operations -/

/-- Within the limit MAN.ENC answers the image of its input (40_manchester.md R104). -/
theorem exec_manEnc_of_le (bs : ByteSeq) (h : bs.length ≤ 128) (s : State) :
    exec (.manEnc bs) s = .next (s.complete (Response.okSyms (manEncode bs))) := by
  rw [exec_manEnc, manEncOp_eq, if_neg (by omega)]
  rfl

/-- MAN.DEC completes with the bytes its body answers. -/
theorem exec_manDec_of_ok (ss : SymSeq) (cap : U16) (bs : ByteSeq) (h : manDecOp ss cap = .ok bs) (s : State) :
    exec (.manDec ss cap) s = .next (s.complete (Response.okBytes bs)) := by
  rw [exec_manDec, h]
  rfl

/-- MAN.DEC completes with the failure its body ends in. -/
theorem exec_manDec_of_status (ss : SymSeq) (cap : U16) (c : Status) (h : manDecOp ss cap = .error (.status c))
    (s : State) : exec (.manDec ss cap) s = .next (s.complete (failure c.code)) := by
  rw [exec_manDec, h]
  rfl

/-- Settles O21: what MAN.ENC answers is `manEncode`, an image by `isManchesterImage_manEncode`. -/
theorem manEncSendsEveryBitAsItsPair : Obligations.ManEncSendsEveryBitAsItsPair := by
  intro bs
  refine ⟨fun h => ⟨manEncode bs, isManchesterImage_manEncode bs, exec_manEnc_of_le bs h⟩, fun h s => ?_⟩
  rw [exec_manEnc, manEncOp_eq, if_pos h]
  rfl

/-- Settles O22: the checks in the order of `manDecOp_eq`; past them the pairs decide between an image and a failure. -/
theorem manDecDecodesOrFailsAtTheFirstCheck : Obligations.ManDecDecodesOrFailsAtTheFirstCheck := by
  intro ss cap
  refine ⟨fun hlimit => ?tooLong, fun hlimit hpartial => ?partialByte, fun hlimit hwhole hcap => ?tooSmall,
    fun hlimit hwhole hcap hillegal => ?illegalPair, fun hlimit hwhole hcap hlegal => ?legal⟩
  case tooLong =>
    exact exec_manDec_of_status ss cap .inputTooLong (by rw [manDecOp_eq, if_pos hlimit])
  case partialByte =>
    exact exec_manDec_of_status ss cap .manInvalidLength
      (by rw [manDecOp_eq, if_neg (by omega), if_pos hpartial])
  case tooSmall =>
    exact exec_manDec_of_status ss cap .manBufferTooSmall
      (by rw [manDecOp_eq, if_neg (by omega), if_neg (by omega), if_pos hcap])
  case illegalPair =>
    exact exec_manDec_of_status ss cap .manInvalidTransition
      (manDecOp_of_not_pairsLegal ss cap hlimit hwhole hcap hillegal)
  case legal =>
    obtain ⟨bs, rfl⟩ := (pairsLegal_iff_exists_manEncode ss (ss.length / 16) (by omega)).mp hlegal
    have hlen := length_manEncode bs
    exact ⟨bs, isManchesterImage_manEncode bs,
      exec_manDec_of_ok _ cap bs (manDecOp_manEncode bs cap (by omega) (by omega))⟩

/-- Settles O23, by `manDecOp_manEncode`. -/
theorem manchesterDecodeOfEncodeIsIdentity : Obligations.ManchesterDecodeOfEncodeIsIdentity := by
  intro b cap hlimit hcap
  exact ⟨Response.okSyms (manEncode b), exec_manEnc_of_le b hlimit, rfl,
    exec_manDec_of_ok _ cap b (manDecOp_manEncode b cap hlimit hcap)⟩

/-- Settles O24: each property holds of the pairs of any bits, and an image is the pairs of its bytes' bits. -/
theorem manchesterImageIsSelfClockingBalancedAndConcatenates :
    Obligations.ManchesterImageIsSelfClockingBalancedAndConcatenates := by
  refine ⟨fun b i hi => ?transition, fun b => ?balance, fun b k hk => ?noLongRun, manEncode_append⟩
  case transition =>
    rw [manEncode_eq_manPairs]
    exact manPairs_cell_ne _ i (by rwa [length_unpackSyms])
  case balance => simp only [manEncode_eq_manPairs, count_manPairs, length_unpackSyms, and_self]
  case noLongRun =>
    rw [manEncode_eq_manPairs] at hk ⊢
    exact manPairs_no_run_of_three _ k hk

end Sys2Proof.Manchester
end

section
/-!
PROOFS. The bytes as GF(2^8) (41_reed_solomon.md R120 to R123): the value of a byte at a root of `GF_POLY` in the
algebraic closure of GF(2). Sums and products of bytes are sums and products of values, and no two bytes share a value, so what
holds in a field holds of bytes.
-/

namespace Sys2Proof.Galois

open Sys2Proof Sys2Proof.Machine Sys2Proof.Safety Polynomial

/-! ### Bytes as polynomials over GF(2) -/

theorem toPoly_xor {n : Nat} (a b : BitVec n) : toPoly (a ^^^ b) = toPoly a + toPoly b := by
  simp only [toPoly, ← Finset.sum_add_distrib]
  refine Finset.sum_congr rfl fun i _ => ?_
  cases ha : a.getLsbD i <;> cases hb : b.getLsbD i <;> simp [ha, hb, CharTwo.add_self_eq_zero]

@[simp] theorem toPoly_zero (n : Nat) : toPoly (0#n) = 0 := by simp [toPoly]

@[simp] theorem toPoly_one : toPoly (1#8) = 1 := by simp [toPoly]

theorem toPoly_alpha : toPoly Config.gfAlpha = X := by
  simp [toPoly, Finset.sum_range_succ, Config.gfAlpha]

theorem toPoly_gfPoly : toPoly (0x11D#9) = X ^ 8 + (X ^ 4 + X ^ 3 + X ^ 2 + 1) := by
  simp [toPoly, Finset.sum_range_succ]
  ring

/-- A shift of a byte is a multiplication by `x` once the bit shifted out is counted (41_reed_solomon.md R121). -/
theorem toPoly_shiftLeft_one (a : Byte) :
    toPoly (a <<< 1) + (if a.getLsbD 7 then X ^ 8 else 0) = X * toPoly a := by
  simp only [toPoly, Finset.mul_sum, mul_ite, mul_zero, ← pow_succ']
  rw [Finset.sum_range_succ', Finset.sum_range_succ (n := 7)]
  simp [Finset.sum_range_succ]

/-- `gshift` is multiplication by `x`, less the modulus when a bit is shifted out (41_reed_solomon.md R121). -/
theorem toPoly_gshift (a : Byte) :
    toPoly (gshift a) + (if a.getLsbD 7 then toPoly (0x11D#9) else 0) = X * toPoly a := by
  have hlow : toPoly (Config.gfPoly.setWidth 8) = X ^ 4 + X ^ 3 + X ^ 2 + 1 := by
    simp [toPoly, Config.gfPoly, Finset.sum_range_succ]
    ring
  have hshift := toPoly_shiftLeft_one a
  unfold gshift
  cases h : a.getLsbD 7
  · simpa only [h, Bool.false_eq_true, if_false, add_zero, cond_false] using hshift
  · simp only [h, if_true, cond_true] at hshift ⊢
    rw [toPoly_xor, hlow, toPoly_gfPoly, ← hshift]
    linear_combination CharTwo.add_self_eq_zero (X ^ 4 + X ^ 3 + X ^ 2 + 1 : (ZMod 2)[X])

/-- The low bits of a byte: the lowest, and `x` times those of the right shift. -/
theorem toPoly_setWidth_succ (b : Byte) (n : Nat) :
    toPoly (b.setWidth (n + 1)) =
      (if b.getLsbD 0 then (1 : (ZMod 2)[X]) else 0) + X * toPoly ((b >>> 1).setWidth n) := by
  simp only [toPoly, Finset.sum_range_succ', Finset.mul_sum, mul_ite, mul_zero, ← pow_succ', pow_zero]
  rw [add_comm]
  congr 1
  · simp
  · refine Finset.sum_congr rfl fun i hi => ?_
    have hlt := Finset.mem_range.mp hi
    simp [hlt, Nat.add_comm 1]

section Modulus

variable {R : Type} [CommRing R] (f : (ZMod 2)[X] →+* R) (hf : f (toPoly (0x11D#9)) = 0)
include hf

/-- Modulo `GF_POLY` a `gshift` is a multiplication by `x`. -/
theorem map_toPoly_gshift (a : Byte) : f (toPoly (gshift a)) = f X * f (toPoly a) := by
  rw [← map_mul, ← toPoly_gshift, map_add]
  split <;> simp [hf]

/-- The loop adds to `r` the product of `a` with the low `n` bits of `b` (41_reed_solomon.md R121). -/
theorem map_toPoly_gmulLoop (n : Nat) (a b r : Byte) :
    f (toPoly (gmulLoop n a b r)) =
      f (toPoly r) + f (toPoly a) * f (toPoly (b.setWidth n)) := by
  induction n generalizing a b r with
  | zero => simp [gmulLoop, BitVec.of_length_zero]
  | succ n ih =>
    rw [gmulLoop, ih, map_toPoly_gshift f hf, toPoly_setWidth_succ, map_add, map_mul]
    cases b.getLsbD 0 <;> simp [toPoly_xor] <;> ring

/-- Multiplication of bytes is multiplication of polynomials modulo `GF_POLY` (41_reed_solomon.md R121). -/
theorem map_toPoly_gmul (a b : Byte) : f (toPoly (gmul a b)) = f (toPoly a) * f (toPoly b) := by
  rw [gmul, map_toPoly_gmulLoop f hf, toPoly_zero, map_zero, zero_add, BitVec.setWidth_eq]

end Modulus

/-! ### The value of a byte -/

/-- A field in which `GF_POLY` has a root. -/
abbrev BigField := AlgebraicClosure (ZMod 2)

theorem exists_root_gfPoly : ∃ x : BigField, aeval x (toPoly (0x11D#9)) = 0 := by
  refine IsAlgClosed.exists_aeval_eq_zero _ _ ?_
  rw [toPoly_gfPoly, show (X ^ 8 + (X ^ 4 + X ^ 3 + X ^ 2 + 1) : (ZMod 2)[X]).degree = 8 by compute_degree!]
  decide

/-- A root of `GF_POLY`: the value of `α`. -/
noncomputable def root : BigField := exists_root_gfPoly.choose

theorem aeval_root_gfPoly : aeval root (toPoly (0x11D#9)) = 0 := exists_root_gfPoly.choose_spec

/-- The value of a byte's polynomial at the root (41_reed_solomon.md R120). -/
noncomputable def value (b : Byte) : BigField := aeval root (toPoly b)

@[simp] theorem value_zero : value 0#8 = 0 := by simp [value]
@[simp] theorem value_one : value 1#8 = 1 := by simp [value]
@[simp] theorem value_alpha : value Config.gfAlpha = root := by simp [value, toPoly_alpha]

@[simp] theorem value_gadd (a b : Byte) : value (gadd a b) = value a + value b := by
  simp [value, gadd, toPoly_xor]

@[simp] theorem value_gmul (a b : Byte) : value (gmul a b) = value a * value b :=
  map_toPoly_gmul (aeval root).toRingHom aeval_root_gfPoly a b

@[simp] theorem value_gpow (a : Byte) (n : Nat) : value (gpow a n) = value a ^ n := by
  induction n with
  | zero => simp [gpow]
  | succ n ih => rw [gpow, value_gmul, ih, pow_succ']

theorem value_ne_zero_of_gmul_eq_one (a b : Byte) (h : gmul a b = 1#8) : value a ≠ 0 := by
  intro ha
  have := value_gmul a b
  simp [h, ha] at this

/-! ### The root is primitive, and bytes are told apart by their values -/

theorem root_pow_255 : root ^ 255 = 1 := by
  have h : gpow Config.gfAlpha 255 = 1#8 := by decide +kernel
  simpa using congrArg value h

theorem root_ne_zero : root ≠ 0 := fun h => by simpa [h] using root_pow_255

/-- A power of the root whose sum with 1 has an inverse is not 1. -/
theorem root_pow_ne_one (k : Nat) (b : Byte) (h : gmul (gadd (gpow Config.gfAlpha k) 1#8) b = 1#8) :
    root ^ k ≠ 1 := by
  intro hk
  refine value_ne_zero_of_gmul_eq_one _ b h ?_
  simp [hk, CharTwo.add_self_eq_zero]

/-- The element `α` is primitive (41_reed_solomon.md R122). -/
theorem orderOf_root : orderOf root = 255 := by
  refine orderOf_eq_of_pow_and_pow_div_prime (by norm_num) root_pow_255 fun p hp hdvd => ?_
  have hprime : p = 3 ∨ p = 5 ∨ p = 17 := by
    have : p ∈ Nat.primeFactors 255 := Nat.mem_primeFactors.mpr ⟨hp, hdvd, by norm_num⟩
    rw [show Nat.primeFactors 255 = {3, 5, 17} by decide +kernel] at this
    simpa using this
  rcases hprime with rfl | rfl | rfl
  · exact root_pow_ne_one 85 (gpow (gadd (gpow Config.gfAlpha 85) 1#8) 254) (by decide +kernel)
  · exact root_pow_ne_one 51 (gpow (gadd (gpow Config.gfAlpha 51) 1#8) 254) (by decide +kernel)
  · exact root_pow_ne_one 15 (gpow (gadd (gpow Config.gfAlpha 15) 1#8) 254) (by decide +kernel)

theorem root_pow_inj {i j : Nat} (hi : i < 255) (hj : j < 255) : root ^ i = root ^ j ↔ i = j :=
  ⟨fun h => pow_injOn_Iio_orderOf (by simpa [orderOf_root] using hi) (by simpa [orderOf_root] using hj) h,
    fun h => h ▸ rfl⟩

open Classical in
/-- Zero and the powers of the root: 256 values of bytes. -/
theorem card_zero_and_powers :
    (insert 0 ((Finset.range 255).image (root ^ ·)) : Finset BigField).card = 256 := by
  rw [Finset.card_insert_of_notMem, Finset.card_image_of_injOn]
  · simp
  · intro i hi j hj h
    exact (root_pow_inj (by simpa using hi) (by simpa using hj)).mp h
  · simp [root_ne_zero]

open Classical in
/-- The values of the bytes are zero and the powers of the root. -/
theorem image_value :
    insert 0 ((Finset.range 255).image (root ^ ·)) = (Finset.univ : Finset Byte).image value := by
  refine Finset.eq_of_subset_of_card_le (fun x hx => ?_) ?_
  · rcases Finset.mem_insert.mp hx with rfl | hx
    · exact Finset.mem_image.mpr ⟨0#8, Finset.mem_univ _, value_zero⟩
    · obtain ⟨i, -, rfl⟩ := Finset.mem_image.mp hx
      exact Finset.mem_image.mpr ⟨gpow Config.gfAlpha i, Finset.mem_univ _, by simp⟩
  · rw [card_zero_and_powers]
    exact Finset.card_image_le.trans (by decide +kernel)

/-- Different bytes have different values: 256 bytes take 256 values. -/
theorem value_injective : Function.Injective value := by
  classical
  have hcard : ((Finset.univ : Finset Byte).image value).card = (Finset.univ : Finset Byte).card := by
    rw [← image_value, card_zero_and_powers]
    decide +kernel
  exact fun a b h => Finset.card_image_iff.mp hcard (by simp) (by simp) h

@[simp] theorem value_eq_zero_iff (a : Byte) : value a = 0 ↔ a = 0#8 := by
  rw [← value_zero, value_injective.eq_iff]

/-- A nonzero byte is a power of `α`, so its 255th power is 1 (41_reed_solomon.md R122, R123). -/
theorem value_pow_255 (a : Byte) (ha : a ≠ 0#8) : value a ^ 255 = 1 := by
  classical
  have hmem : value a ∈ (Finset.univ : Finset Byte).image value := Finset.mem_image_of_mem _ (Finset.mem_univ a)
  rw [← image_value, Finset.mem_insert, value_eq_zero_iff, Finset.mem_image] at hmem
  obtain ⟨i, -, hi⟩ := hmem.resolve_left ha
  rw [← hi, ← pow_mul, mul_comm, pow_mul, root_pow_255, one_pow]

theorem gdiv_of_ne_zero (a b : Byte) (hb : b ≠ 0#8) : gdiv a b = .ok (gmul a (gpow b 254)) := by
  simp [gdiv, ginv, beq_eq_false_iff_ne.mpr hb, bind, Except.bind, pure, Except.pure]

/-- Division by a nonzero byte undoes the multiplication (41_reed_solomon.md R123). -/
theorem gdiv_of_value_eq (a b q : Byte) (hb : b ≠ 0#8) (h : value a = value q * value b) : gdiv a b = .ok q := by
  rw [gdiv_of_ne_zero a b hb]
  refine congrArg Except.ok (value_injective ?_)
  rw [value_gmul, value_gpow, h, mul_assoc, ← pow_succ', value_pow_255 b hb, mul_one]

end Sys2Proof.Galois
end

section
/-!
PROOFS. The code RS(32,24) (41_reed_solomon.md R124 to R128) by the values of its bytes: the syndromes of a word are a
linear form on polynomials, evaluation at the locators of its nonzero positions. A polynomial that vanishes at all of
these but one isolates that one, which is why few errors are told apart by few syndromes.
-/

namespace Sys2Proof.ReedSolomon

open Sys2Proof Sys2Proof.Machine Sys2Proof.Safety Sys2Proof.Galois Polynomial

/-! ### Sums and positions of words -/

@[simp] theorem xorInto_nil (w : ByteSeq) : xorInto w [] = w := by cases w <;> rfl
@[simp] theorem xorInto_cons (a b : Byte) (u v : ByteSeq) : xorInto (a :: u) (b :: v) = gadd a b :: xorInto u v := rfl

@[simp] theorem length_xorInto (u v : ByteSeq) : (xorInto u v).length = u.length := by
  induction u generalizing v with
  | nil => cases v <;> rfl
  | cons a u ih => cases v <;> simp [ih]

theorem getD_xorInto (u v : ByteSeq) (h : v.length ≤ u.length) (i : Nat) :
    (xorInto u v).getD i 0#8 = gadd (u.getD i 0#8) (v.getD i 0#8) := by
  induction u generalizing v i with
  | nil => cases v with
    | nil => simp [gadd]
    | cons b v => simp at h
  | cons a u ih => cases v with
    | nil => simp [gadd]
    | cons b v => cases i with
      | zero => rfl
      | succ i => simpa using ih v (by simpa using h) i

/-- Adding a word twice gives it back (41_reed_solomon.md R120). -/
theorem xorInto_xorInto : ∀ u v : ByteSeq, u.length = v.length → xorInto u (xorInto u v) = v
  | [], [], _ => rfl
  | a :: u, b :: v, h => by simp [gadd, xorInto_xorInto u v (by simpa using h)]

theorem xorInto_eq_zipWith : ∀ u v : ByteSeq, u.length = v.length → xorInto u v = List.zipWith (· ^^^ ·) u v
  | [], [], _ => rfl
  | a :: u, b :: v, h => by simp [gadd, xorInto_eq_zipWith u v (by simpa using h)]

/-- Words are equal when they agree at every position. -/
theorem eq_of_getD_eq (u v : ByteSeq) (hlen : u.length = v.length)
    (h : ∀ i, i < u.length → u.getD i 0#8 = v.getD i 0#8) : u = v :=
  List.ext_getElem hlen fun i hu hv => by simpa [hu, hv] using h i hu

/-- The positions at which two words of 32 bytes differ. -/
def diffPositions (u v : ByteSeq) : Finset Nat :=
  (Finset.range 32).filter fun i => u.getD i 0#8 ≠ v.getD i 0#8

theorem mem_diffPositions (u v : ByteSeq) (i : Nat) :
    i ∈ diffPositions u v ↔ i < 32 ∧ u.getD i 0#8 ≠ v.getD i 0#8 := by
  simp [diffPositions]

theorem dist_eq_sum : ∀ u v : ByteSeq, u.length = v.length →
    Machine.dist u v = ∑ i ∈ Finset.range u.length, if u.getD i 0#8 ≠ v.getD i 0#8 then 1 else 0
  | [], [], _ => rfl
  | a :: u, b :: v, h => by
    rw [List.length_cons, Finset.sum_range_succ', Machine.dist, dist_eq_sum u v (by simpa using h), add_comm]
    by_cases hab : a = b
    · simp [hab]
    · simp [hab, beq_eq_false_iff_ne.mpr hab]

/-- The distance is the number of positions at which two words differ (41_reed_solomon.md R128). -/
theorem dist_eq_card (u v : ByteSeq) (hu : u.length = 32) (hv : v.length = 32) :
    Machine.dist u v = (diffPositions u v).card := by
  rw [dist_eq_sum u v (hu.trans hv.symm), diffPositions, Finset.card_filter, hu]

theorem dist_self (u : ByteSeq) : Machine.dist u u = 0 := by simp [dist_eq_sum]

/-- Where two words differ, a third differs from one of them. -/
theorem dist_triangle (r u v : ByteSeq) (hr : r.length = 32) (hu : u.length = 32) (hv : v.length = 32) :
    Machine.dist u v ≤ Machine.dist r u + Machine.dist r v := by
  rw [dist_eq_card u v hu hv, dist_eq_card r u hr hu, dist_eq_card r v hr hv]
  refine (Finset.card_le_card fun i hi => ?_).trans (Finset.card_union_le _ _)
  simp only [Finset.mem_union, mem_diffPositions] at hi ⊢
  grind

/-- Words that agree on their first 24 bytes differ in at most eight positions. -/
theorem dist_le_eight (u v : ByteSeq) (hu : u.length = 32) (hv : v.length = 32) (h : u.take 24 = v.take 24) :
    Machine.dist u v ≤ 8 := by
  rw [dist_eq_card u v hu hv]
  refine (Finset.card_le_card (t := Finset.Ico 24 32) fun i hi => ?_).trans (by simp)
  rw [mem_diffPositions] at hi
  refine Finset.mem_Ico.mpr ⟨Nat.le_of_not_lt fun hlt => hi.2 ?_, hi.1⟩
  have := congrArg (fun l : ByteSeq => l.getD i 0#8) h
  simpa [List.getElem?_take, hlt] using this

/-! ### Evaluation -/

@[simp] theorem value_gexp (i : Nat) : value (gexp i) = root ^ i := by
  rw [gexp, value_gpow, value_alpha, ← orderOf_root, pow_mod_orderOf]

/-- Horner's rule from a start value (41_reed_solomon.md R124). -/
theorem value_foldl_horner (c : ByteSeq) (x acc : Byte) :
    value (c.foldl (fun acc b => gadd (gmul x acc) b) acc) =
      value acc * value x ^ c.length
        + ∑ i ∈ Finset.range c.length, value (c.getD i 0#8) * value x ^ (c.length - 1 - i) := by
  induction c generalizing acc with
  | nil => simp
  | cons b c ih =>
    rw [List.foldl_cons, ih, List.length_cons, Finset.sum_range_succ']
    simp only [value_gadd, value_gmul, List.getD_cons_succ, List.getD_cons_zero, pow_succ, Nat.add_sub_cancel,
      Nat.sub_zero, Nat.sub_sub, Nat.add_comm 1]
    ring

theorem value_gevalHigh (c : ByteSeq) (x : Byte) :
    value (gevalHigh c x) = ∑ i ∈ Finset.range c.length, value (c.getD i 0#8) * value x ^ (c.length - 1 - i) := by
  simp [gevalHigh, value_foldl_horner]

theorem value_gevalHigh_append (u v : ByteSeq) (x : Byte) :
    value (gevalHigh (u ++ v) x) = value (gevalHigh u x) * value x ^ v.length + value (gevalHigh v x) := by
  rw [gevalHigh, List.foldl_append, value_foldl_horner, value_gevalHigh v]
  rfl

theorem value_gevalHigh_cons (a : Byte) (v : ByteSeq) (x : Byte) :
    value (gevalHigh (a :: v) x) = value a * value x ^ v.length + value (gevalHigh v x) := by
  rw [← List.singleton_append, value_gevalHigh_append]
  simp [gevalHigh]

/-! ### The syndromes as a linear form -/

/-- The value of the locator of position `i` (41_reed_solomon.md R137). -/
noncomputable def locator (i : Nat) : BigField := root ^ (31 - i)

theorem locator_inj {i j : Nat} (hi : i < 32) (hj : j < 32) : locator i = locator j ↔ i = j := by
  rw [locator, locator, root_pow_inj (by omega) (by omega)]
  omega

/-- The sum of a polynomial's values at the locators, weighted with the bytes of a word of 32 bytes. -/
noncomputable def errorForm (e : ByteSeq) : BigField[X] →ₗ[BigField] BigField :=
  ∑ i ∈ Finset.range 32, value (e.getD i 0#8) • leval (locator i)

theorem errorForm_apply (e : ByteSeq) (P : BigField[X]) :
    errorForm e P = ∑ i ∈ Finset.range 32, value (e.getD i 0#8) * P.eval (locator i) := by
  simp [errorForm]

theorem errorForm_xorInto (u v : ByteSeq) (h : v.length ≤ u.length) :
    errorForm (xorInto u v) = errorForm u + errorForm v := by
  simp only [errorForm, getD_xorInto u v h, value_gadd, add_smul, Finset.sum_add_distrib]

/-- Syndrome `j` is the form at `x^j` (41_reed_solomon.md R126). -/
theorem value_syndrome (c : ByteSeq) (hc : c.length = 32) (j : Nat) :
    value (gevalHigh c (gexp j)) = errorForm c (X ^ j) := by
  rw [value_gevalHigh, errorForm_apply, hc]
  refine Finset.sum_congr rfl fun i _ => ?_
  rw [value_gexp, eval_pow, eval_X, locator, ← pow_mul, ← pow_mul, mul_comm j]

theorem syndromes_eq (c : ByteSeq) : syndromes c = (List.range 8).map fun j => gevalHigh c (gexp j) := by
  simp [syndromes, Config.rsFcr, show Config.rsParityLen = 8 from rfl]

/-- A code word is a word of 32 bytes with eight zero syndromes (41_reed_solomon.md R126). -/
theorem isCodeword_iff (c : ByteSeq) :
    isCodeword c = true ↔ c.length = 32 ∧ ∀ j, j < 8 → gevalHigh c (gexp j) = 0#8 := by
  simp [isCodeword, syndromes_eq, show Config.rsN = 32 from rfl]

theorem length_of_isCodeword (c : ByteSeq) (h : isCodeword c = true) : c.length = 32 := ((isCodeword_iff c).mp h).1

theorem errorForm_of_isCodeword (c : ByteSeq) (h : isCodeword c = true) (j : Nat) (hj : j < 8) :
    errorForm c (X ^ j) = 0 := by
  obtain ⟨hlen, hsyn⟩ := (isCodeword_iff c).mp h
  rw [← value_syndrome c hlen, hsyn j hj, value_zero]

/-- A linear form that vanishes at the first `n` powers of `x` vanishes below degree `n`. -/
theorem linearForm_eq_zero (L : BigField[X] →ₗ[BigField] BigField) (n : Nat) (hL : ∀ j, j < n → L (X ^ j) = 0)
    (P : BigField[X]) (hP : P.natDegree < n) : L P = 0 := by
  rw [P.as_sum_range' n hP, map_sum]
  refine Finset.sum_eq_zero fun j hj => ?_
  rw [← C_mul_X_pow_eq_monomial, ← smul_eq_C_mul, map_smul, hL j (Finset.mem_range.mp hj), smul_zero]

/-- A polynomial that vanishes at the locators of all nonzero positions but `i` isolates position `i`. -/
theorem errorForm_of_isolated (e : ByteSeq) (P : BigField[X]) (i : Nat) (hi : i < 32)
    (h : ∀ j, j < 32 → e.getD j 0#8 ≠ 0#8 → j ≠ i → P.eval (locator j) = 0) :
    errorForm e P = value (e.getD i 0#8) * P.eval (locator i) := by
  rw [errorForm_apply]
  refine Finset.sum_eq_single i (fun j hj hji => ?_) (fun hni => absurd (Finset.mem_range.mpr hi) hni)
  by_cases hz : e.getD j 0#8 = 0#8
  · rw [hz, value_zero, zero_mul]
  · rw [h j (Finset.mem_range.mp hj) hz hji, mul_zero]

/-- The polynomial with the locators of the positions `s` as its roots. -/
noncomputable def locatorPoly (s : Finset Nat) : BigField[X] := ∏ j ∈ s, (X - C (locator j))

@[simp] theorem natDegree_locatorPoly (s : Finset Nat) : (locatorPoly s).natDegree = s.card :=
  natDegree_finsetProd_X_sub_C_eq_card s locator

theorem eval_locatorPoly_eq_zero_iff (s : Finset Nat) (hs : ∀ j ∈ s, j < 32) (i : Nat) (hi : i < 32) :
    (locatorPoly s).eval (locator i) = 0 ↔ i ∈ s := by
  simp only [locatorPoly, eval_prod, eval_sub, eval_X, eval_C, Finset.prod_eq_zero_iff, sub_eq_zero]
  constructor
  · rintro ⟨j, hj, h⟩
    rwa [(locator_inj hi (hs j hj)).mp h]
  · exact fun h => ⟨i, h, rfl⟩

/-- The positions of a word of 32 bytes that are not zero. -/
def errorPositions (e : ByteSeq) : Finset Nat := (Finset.range 32).filter fun i => e.getD i 0#8 ≠ 0#8

theorem mem_errorPositions (e : ByteSeq) (i : Nat) : i ∈ errorPositions e ↔ i < 32 ∧ e.getD i 0#8 ≠ 0#8 := by
  simp [errorPositions]

theorem errorPositions_xorInto (u v : ByteSeq) (h : v.length ≤ u.length) :
    errorPositions (xorInto u v) = diffPositions u v := by
  ext i
  simp [mem_errorPositions, mem_diffPositions, getD_xorInto u v h, gadd, -List.getD_eq_getElem?_getD]

/-- The form at a multiple of the locator polynomial of all other nonzero positions picks out position `i`: it is zero
only where the cofactor is. -/
theorem eval_eq_zero_of_errorForm (e : ByteSeq) (i : Nat) (hi : i ∈ errorPositions e) (Q : BigField[X])
    (h : errorForm e (Q * locatorPoly ((errorPositions e).erase i)) = 0) : Q.eval (locator i) = 0 := by
  obtain ⟨hlt, hne⟩ := (mem_errorPositions e i).mp hi
  have hs : ∀ j ∈ (errorPositions e).erase i, j < 32 := fun j hj =>
    ((mem_errorPositions e j).mp (Finset.mem_of_mem_erase hj)).1
  have hi' : (locatorPoly ((errorPositions e).erase i)).eval (locator i) ≠ 0 := by
    rw [Ne, eval_locatorPoly_eq_zero_iff _ hs i hlt]
    exact Finset.notMem_erase i _
  rw [errorForm_of_isolated e _ i hlt, eval_mul, mul_eq_zero, value_eq_zero_iff, mul_eq_zero] at h
  · exact (h.resolve_left hne).resolve_right hi'
  · intro j hj hjne hji
    rw [eval_mul, (eval_locatorPoly_eq_zero_iff _ hs j hj).mpr, mul_zero]
    exact Finset.mem_erase.mpr ⟨hji, (mem_errorPositions e j).mpr ⟨hj, hjne⟩⟩

/-- A nonzero word with eight zero syndromes has at least nine nonzero positions (41_reed_solomon.md R128). -/
theorem nine_le_card_errorPositions (e : ByteSeq) (hsyn : ∀ j, j < 8 → errorForm e (X ^ j) = 0)
    (hne : (errorPositions e).Nonempty) : 9 ≤ (errorPositions e).card := by
  by_contra hlt
  obtain ⟨i, hi⟩ := hne
  have hform : errorForm e (1 * locatorPoly ((errorPositions e).erase i)) = 0 := by
    refine linearForm_eq_zero _ 8 hsyn _ ?_
    rw [one_mul, natDegree_locatorPoly, Finset.card_erase_of_mem hi]
    omega
  simpa using eval_eq_zero_of_errorForm e i hi 1 hform

/-- The minimum distance of the code (41_reed_solomon.md R128). -/
theorem nine_le_dist (u v : ByteSeq) (hu : isCodeword u = true) (hv : isCodeword v = true) (hne : u ≠ v) :
    9 ≤ Machine.dist u v := by
  have hulen := length_of_isCodeword u hu
  have hvlen := length_of_isCodeword v hv
  have hle : v.length ≤ u.length := by omega
  rw [dist_eq_card u v hulen hvlen, ← errorPositions_xorInto u v hle]
  refine nine_le_card_errorPositions _ (fun j hj => ?_) ?_
  · rw [errorForm_xorInto u v hle, LinearMap.add_apply, errorForm_of_isCodeword u hu j hj,
      errorForm_of_isCodeword v hv j hj, add_zero]
  · rw [errorPositions_xorInto u v hle, Finset.nonempty_iff_ne_empty]
    intro hempty
    refine hne (eq_of_getD_eq u v (hulen.trans hvlen.symm) fun i hi => ?_)
    by_contra hd
    have := (mem_diffPositions u v i).mpr ⟨by omega, hd⟩
    simp [hempty] at this

/-- At most one code word lies within four of a word (41_reed_solomon.md R128). -/
theorem codeword_unique (r u v : ByteSeq) (hr : r.length = 32) (hu : isCodeword u = true) (hv : isCodeword v = true)
    (hru : Machine.dist r u ≤ 4) (hrv : Machine.dist r v ≤ 4) : u = v := by
  by_contra hne
  have hfar := nine_le_dist u v hu hv hne
  have htri := dist_triangle r u v hr (length_of_isCodeword u hu) (length_of_isCodeword v hv)
  omega

/-- Settles O32, by the minimum distance and the triangle inequality. -/
theorem distinctCodeWordsDifferInNinePositions : Obligations.DistinctCodeWordsDifferInNinePositions :=
  ⟨nine_le_dist, codeword_unique⟩

end Sys2Proof.ReedSolomon
end

section
/-!
PROOFS. The encoder (41_reed_solomon.md R126, R127): a round of the long division adds a multiple of the generator, so
it leaves the value at each of the generator's roots, and the data followed by the remainder has the value 0 there.
-/

namespace Sys2Proof.ReedSolomon

open Sys2Proof Sys2Proof.Machine Sys2Proof.Safety Sys2Proof.Galois

/-! ### The long division -/

theorem rsDivide_succ (k : Nat) (f : Byte) (w : ByteSeq) :
    rsDivide (k + 1) (f :: w) =
      rsDivide k (if f = 0#8 then w else xorInto w (Config.rsGenerator.tail.map fun g => gmul g f)) := by
  rw [rsDivide]
  by_cases h : f = 0#8
  · simp [h]
  · simp [h, beq_eq_false_iff_ne.mpr h]

theorem length_rsDivide (k : Nat) (w : ByteSeq) : (rsDivide k w).length = w.length - k := by
  induction k generalizing w with
  | zero => rfl
  | succ k ih => cases w with
    | nil => simp [rsDivide]
    | cons f w =>
      rw [rsDivide_succ, ih]
      split <;> simp

/-- Horner's rule is additive where the shorter word is added to the leading bytes. -/
theorem value_gevalHigh_xorInto (w e : ByteSeq) (x : Byte) (h : e.length ≤ w.length) :
    value (gevalHigh (xorInto w e) x) =
      value (gevalHigh w x) + value (gevalHigh e x) * value x ^ (w.length - e.length) := by
  induction w generalizing e with
  | nil => cases e with
    | nil => simp [gevalHigh]
    | cons b e => simp at h
  | cons a w ih => cases e with
    | nil => simp [gevalHigh]
    | cons b e =>
      have hle : e.length ≤ w.length := by simpa using h
      rw [xorInto_cons, value_gevalHigh_cons, value_gevalHigh_cons, value_gevalHigh_cons, length_xorInto, ih e hle,
        value_gadd, List.length_cons, List.length_cons, Nat.add_sub_add_right, add_mul (value b * _),
        mul_assoc (value b), ← pow_add, Nat.add_sub_cancel' hle]
      ring

theorem value_gevalHigh_map_gmul (c : ByteSeq) (f x : Byte) :
    value (gevalHigh (c.map fun g => gmul g f) x) = value (gevalHigh c x) * value f := by
  induction c with
  | nil => simp [gevalHigh]
  | cons a c ih =>
    rw [List.map_cons, value_gevalHigh_cons, value_gevalHigh_cons, ih, value_gmul, List.length_map]
    ring

/-- The first eight powers of `α` are roots of the generator (41_reed_solomon.md R125). -/
theorem gevalHigh_rsGenerator (j : Nat) (hj : j < 8) : gevalHigh Config.rsGenerator (gexp j) = 0#8 := by
  have h : ∀ j ∈ List.range 8, gevalHigh Config.rsGenerator (gexp j) = 0#8 := by decide +kernel
  exact h j (List.mem_range.mpr hj)

/-- The division leaves the value at a root of the generator (41_reed_solomon.md R126, R127). -/
theorem value_gevalHigh_rsDivide (x : Byte) (hx : gevalHigh Config.rsGenerator x = 0#8) (k : Nat) (w : ByteSeq)
    (hw : k + 8 ≤ w.length) : value (gevalHigh (rsDivide k w) x) = value (gevalHigh w x) := by
  have hroot : value x ^ 8 + value (gevalHigh Config.rsGenerator.tail x) = 0 := by
    have h := value_gevalHigh_cons 0x01#8 Config.rsGenerator.tail x
    rw [show (0x01#8 :: Config.rsGenerator.tail) = Config.rsGenerator from rfl, hx] at h
    simpa [show Config.rsGenerator.tail.length = 8 from rfl] using h.symm
  induction k generalizing w with
  | zero => rfl
  | succ k ih => cases w with
    | nil => simp at hw
    | cons f w =>
      rw [List.length_cons] at hw
      rw [rsDivide_succ, value_gevalHigh_cons]
      split
      · next hf => rw [ih w (by omega), hf, value_zero, zero_mul, zero_add]
      · have hlen : (Config.rsGenerator.tail.map fun g => gmul g f).length = 8 := rfl
        rw [ih _ (by rw [length_xorInto]; omega), value_gevalHigh_xorInto _ _ _ (by omega), hlen,
          value_gevalHigh_map_gmul]
        have hpow : value x ^ w.length = value x ^ 8 * value x ^ (w.length - 8) := by
          rw [← pow_add, Nat.add_sub_cancel' (by omega)]
        rw [hpow]
        linear_combination value f * value x ^ (w.length - 8) * hroot
          - value f * value x ^ (w.length - 8) * CharTwo.add_self_eq_zero (value x ^ 8)

/-! ### The encoding of 24 bytes -/

theorem length_rsParity (d : ByteSeq) (hd : d.length = 24) : (rsParity d).length = 8 := by
  rw [rsParity, length_rsDivide]
  simp [rep, hd, show Config.rsParityLen = 8 from rfl, show Config.rsK = 24 from rfl]

theorem length_rsEncode (d : ByteSeq) (hd : d.length = 24) : (rsEncode d).length = 32 := by
  simp [rsEncode, length_rsParity d hd, hd]

theorem take_rsEncode (d : ByteSeq) (hd : d.length = 24) : (rsEncode d).take 24 = d := by
  rw [rsEncode, List.take_left' hd]

/-- The encoding of 24 bytes is a code word (41_reed_solomon.md R126). -/
theorem isCodeword_rsEncode (d : ByteSeq) (hd : d.length = 24) : isCodeword (rsEncode d) = true := by
  refine (isCodeword_iff _).mpr ⟨length_rsEncode d hd, fun j hj => value_injective ?_⟩
  have hzero : value (gevalHigh (rep 0#8 Config.rsParityLen) (gexp j)) = 0 := by
    simp [value_gevalHigh, rep]
  have hparity := value_gevalHigh_rsDivide (gexp j) (gevalHigh_rsGenerator j hj) Config.rsK
    (d ++ rep 0#8 Config.rsParityLen)
    (by simp [rep, hd, show Config.rsParityLen = 8 from rfl, show Config.rsK = 24 from rfl])
  rw [value_gevalHigh_append, hzero, add_zero, ← rsParity] at hparity
  rw [rsEncode, value_gevalHigh_append, hparity, length_rsParity d hd,
    show (rep 0#8 Config.rsParityLen).length = 8 from rfl, CharTwo.add_self_eq_zero, value_zero]

/-- A code word is the encoding of its first 24 bytes: the two agree there, so they are too near to differ
(41_reed_solomon.md R126). -/
theorem rsEncode_take (c : ByteSeq) (hc : isCodeword c = true) : rsEncode (c.take 24) = c := by
  have hlen := length_of_isCodeword c hc
  have htake : (c.take 24).length = 24 := by simp [hlen]
  by_contra hne
  have hfar := nine_le_dist _ c (isCodeword_rsEncode _ htake) hc hne
  have hnear := dist_le_eight _ c (length_rsEncode _ htake) hlen (take_rsEncode _ htake)
  omega

end Sys2Proof.ReedSolomon
end

section
/-!
PROOFS. The decoder (41_reed_solomon.md R129, R137; notes/assumptions/4.md). Its byte sequences are read as polynomials
and as values of a linear form: the elimination keeps an echelon of polynomials, so what is left at the end is not zero; it
vanishes at every error's locator; and taking the other locators out of the syndromes isolates each error.
-/

namespace Sys2Proof.ReedSolomon

open Sys2Proof Sys2Proof.Machine Sys2Proof.Safety Sys2Proof.Galois Polynomial

/-! ### Coefficients, lowest degree first -/

/-- The polynomial of a sequence of coefficients, lowest degree first. -/
noncomputable def polyLow : ByteSeq → BigField[X]
  | [] => 0
  | a :: c => C (value a) + X * polyLow c

theorem value_gevalLow (c : ByteSeq) (x : Byte) : value (gevalLow c x) = (polyLow c).eval (value x) := by
  induction c with
  | nil => simp [gevalLow, polyLow]
  | cons a c ih =>
    have hcons : gevalLow (a :: c) x = gadd a (gmul x (gevalLow c x)) := rfl
    simp [hcons, polyLow, ih]

theorem polyLow_xorInto : ∀ u v : ByteSeq, v.length ≤ u.length → polyLow (xorInto u v) = polyLow u + polyLow v
  | u, [], _ => by simp [polyLow]
  | a :: u, b :: v, h => by
    simp only [xorInto_cons, polyLow, polyLow_xorInto u v (by simpa using h), value_gadd, C_add]
    ring

theorem polyLow_map_gmul (v : Byte) (c : ByteSeq) : polyLow (c.map (gmul v)) = C (value v) * polyLow c := by
  induction c with
  | nil => simp [polyLow]
  | cons a c ih =>
    simp only [List.map_cons, polyLow, ih, value_gmul, C_mul]
    ring

theorem degree_polyLow_lt (c : ByteSeq) : (polyLow c).degree < c.length := by
  induction c with
  | nil => simp [polyLow]
  | cons a c ih =>
    refine (degree_add_le _ _).trans_lt (max_lt ?_ ?_)
    · exact degree_C_le.trans_lt (by rw [List.length_cons]; exact_mod_cast Nat.succ_pos c.length)
    · rw [degree_mul, degree_X, List.length_cons, add_comm]
      exact_mod_cast WithBot.add_lt_add_right (by simp) ih

theorem polyLow_replicate_zero_append (n : Nat) (c : ByteSeq) : polyLow (rep 0#8 n ++ c) = X ^ n * polyLow c := by
  induction n with
  | zero => simp [rep]
  | succ n ih =>
    have hcons : rep 0#8 (n + 1) ++ c = 0#8 :: (rep 0#8 n ++ c) := rfl
    rw [hcons, polyLow, ih, value_zero, C_0, zero_add, pow_succ', mul_assoc]

/-! ### Sequences of values of a linear form -/

/-- The sequence holds the values of `L` at `P`, `P·x`, `P·x²` and so on. -/
def Measures (L : BigField[X] →ₗ[BigField] BigField) : BigField[X] → ByteSeq → Prop
  | _, [] => True
  | P, a :: s => value a = L P ∧ Measures L (P * X) s

section Measures

variable {L : BigField[X] →ₗ[BigField] BigField}

theorem measures_of_getElem (P : BigField[X]) (s : ByteSeq)
    (h : ∀ (j : Nat) (hj : j < s.length), value s[j] = L (P * X ^ j)) : Measures L P s := by
  induction s generalizing P with
  | nil => trivial
  | cons a s ih =>
    refine ⟨(h 0 (by simp)).trans (by rw [pow_zero, mul_one]), ih (P * X) fun j hj => ?_⟩
    exact (h (j + 1) (by simpa using hj)).trans (by rw [pow_succ', mul_assoc])

theorem Measures.drop {P : BigField[X]} {s : ByteSeq} (h : Measures L P s) (k : Nat) :
    Measures L (P * X ^ k) (s.drop k) := by
  induction k generalizing P s with
  | zero => simpa using h
  | succ k ih => cases s with
    | nil => trivial
    | cons a s => simpa [pow_succ', mul_assoc] using ih h.2

theorem Measures.take {P : BigField[X]} {s : ByteSeq} (h : Measures L P s) (k : Nat) : Measures L P (s.take k) := by
  induction k generalizing P s with
  | zero => trivial
  | succ k ih => cases s with
    | nil => trivial
    | cons a s => exact ⟨h.1, ih h.2⟩

theorem Measures.headD {P : BigField[X]} {s : ByteSeq} (h : Measures L P s) (hs : s ≠ []) :
    value (s.headD 0#8) = L P := by
  cases s with
  | nil => exact absurd rfl hs
  | cons a s => exact h.1

/-- The product of a measured row with coefficients is the value at their polynomial. -/
theorem Measures.gdot {P : BigField[X]} {s : ByteSeq} (h : Measures L P s) (c : ByteSeq) (hc : c.length ≤ s.length) :
    value (Machine.gdot s c) = L (P * polyLow c) := by
  induction c generalizing P s with
  | nil => cases s <;> simp [Machine.gdot, polyLow]
  | cons b c ih => cases s with
    | nil => simp at hc
    | cons a s =>
      have hlin : P * polyLow (b :: c) = value b • P + P * X * polyLow c := by
        rw [polyLow, smul_eq_C_mul]
        ring
      rw [Machine.gdot, value_gadd, value_gmul, ih h.2 (by simpa using hc), hlin, map_add, map_smul, h.1, smul_eq_mul,
        mul_comm]

/-- Taking a locator out multiplies by its linear factor. -/
theorem Measures.annihilate {P : BigField[X]} {s : ByteSeq} (h : Measures L P s) (y : Byte) :
    Measures L (P * (X - C (value y))) (Machine.annihilate y s) := by
  induction s generalizing P with
  | nil => trivial
  | cons a s ih => cases s with
    | nil => trivial
    | cons b s =>
      refine ⟨?_, ?_⟩
      · have hlin : P * (X - C (value y)) = P * X - value y • P := by
          rw [smul_eq_C_mul]
          ring
        rw [value_gadd, value_gmul, hlin, map_sub, map_smul, h.1, h.2.1, smul_eq_mul, CharTwo.sub_eq_add]
      · rw [mul_right_comm]
        exact ih h.2

theorem length_annihilate (y : Byte) (s : ByteSeq) : (Machine.annihilate y s).length = s.length - 1 := by
  induction s with
  | nil => rfl
  | cons a s ih => cases s with
    | nil => rfl
    | cons b s => rw [Machine.annihilate, List.length_cons, ih]; rfl

/-- The polynomial with the values of the bytes `ys` as its roots. -/
noncomputable def rootsPoly (ys : ByteSeq) : BigField[X] := (ys.map fun y => X - C (value y)).prod

theorem rootsPoly_cons (y : Byte) (ys : ByteSeq) : rootsPoly (y :: ys) = (X - C (value y)) * rootsPoly ys := rfl

theorem eval_rootsPoly_eq_zero_iff (ys : ByteSeq) (x : Byte) : (rootsPoly ys).eval (value x) = 0 ↔ x ∈ ys := by
  induction ys with
  | nil => simp [rootsPoly]
  | cons y ys ih => simp [rootsPoly_cons, ih, sub_eq_zero, value_injective.eq_iff]

theorem Measures.foldl_annihilate {P : BigField[X]} {s : ByteSeq} (h : Measures L P s) (ys : ByteSeq) :
    Measures L (P * rootsPoly ys) (ys.foldl (fun s y => Machine.annihilate y s) s) := by
  induction ys generalizing P s with
  | nil => simpa [rootsPoly] using h
  | cons y ys ih => simpa [rootsPoly_cons, mul_assoc] using ih (h.annihilate y)

theorem length_foldl_annihilate (ys s : ByteSeq) :
    (ys.foldl (fun s y => Machine.annihilate y s) s).length = s.length - ys.length := by
  induction ys generalizing s with
  | nil => rfl
  | cons y ys ih => rw [List.foldl_cons, ih, length_annihilate, List.length_cons]; omega

end Measures

/-- The syndromes of a received word measure its difference from any code word (41_reed_solomon.md R137). -/
theorem measures_syndromes (r c : ByteSeq) (hr : r.length = 32) (hc : isCodeword c = true) :
    Measures (errorForm (xorInto r c)) 1 (syndromes r) := by
  refine measures_of_getElem 1 _ fun j hj => ?_
  have hj8 : j < 8 := by simpa [syndromes_eq] using hj
  have hle : c.length ≤ r.length := by rw [length_of_isCodeword c hc, hr]
  rw [one_mul, errorForm_xorInto r c hle, LinearMap.add_apply, errorForm_of_isCodeword c hc j hj8, add_zero,
    ← value_syndrome r hr j]
  simp [syndromes_eq]

theorem length_syndromes (r : ByteSeq) : (syndromes r).length = 8 := by simp [syndromes_eq]

/-! ### The elimination -/

/-- A later vector `c` mended by `b` to meet the equation `row`. -/
def mend (row b c : ByteSeq) : ByteSeq := xorInto (c.map (gmul (gdot row b))) (b.map (gmul (gdot row c)))

theorem eliminate_cons (row b : ByteSeq) (rest : List ByteSeq) :
    eliminate row (b :: rest) = if gdot row b = 0#8 then b :: eliminate row rest else rest.map (mend row b) := by
  rw [eliminate]
  by_cases h : gdot row b = 0#8
  · simp [h]
  · rw [if_neg h]
    simp only [beq_eq_false_iff_ne.mpr h]
    rfl

@[simp] theorem length_mend (row b c : ByteSeq) : (mend row b c).length = c.length := by simp [mend]

theorem polyLow_mend (row b c : ByteSeq) (h : b.length = c.length) :
    polyLow (mend row b c) = C (value (gdot row b)) * polyLow c + C (value (gdot row c)) * polyLow b := by
  rw [mend, polyLow_xorInto _ _ (by simp [h]), polyLow_map_gmul, polyLow_map_gmul]

theorem degree_polyLow_mend (row b c : ByteSeq) (h : b.length = c.length) (hb : gdot row b ≠ 0#8)
    (hlt : (polyLow b).degree < (polyLow c).degree) : (polyLow (mend row b c)).degree = (polyLow c).degree := by
  have hc : (C (value (gdot row b)) * polyLow c).degree = (polyLow c).degree :=
    degree_C_mul (by simpa using hb)
  rw [polyLow_mend row b c h, degree_add_eq_left_of_degree_lt, hc]
  rw [hc]
  exact (smul_eq_C_mul (R := BigField) _ ▸ degree_smul_le _ _).trans_lt hlt

/-- Vectors of length 5 of rising degree, none of them zero. -/
def Echelon (basis : List ByteSeq) : Prop :=
  (∀ b ∈ basis, b.length = 5 ∧ polyLow b ≠ 0)
    ∧ basis.Pairwise fun b c => (polyLow b).degree < (polyLow c).degree

/-- What the elimination makes of a basis: a vector that meets the equation stays; any other has been mended by an
earlier vector that does not, and keeps its degree. -/
theorem mem_eliminate (row : ByteSeq) (basis : List ByteSeq) (h : Echelon basis) (c : ByteSeq)
    (hc : c ∈ eliminate row basis) :
    (c ∈ basis ∧ gdot row c = 0#8)
      ∨ ∃ b ∈ basis, ∃ c' ∈ basis, c = mend row b c' ∧ (polyLow c).degree = (polyLow c').degree := by
  induction basis with
  | nil => simp [eliminate] at hc
  | cons b rest ih =>
    obtain ⟨hvec, hdeg⟩ := h
    rw [List.pairwise_cons] at hdeg
    rw [eliminate_cons] at hc
    split at hc
    · next hb =>
      rcases List.mem_cons.mp hc with rfl | hc
      · exact .inl ⟨List.mem_cons_self, hb⟩
      · rcases ih ⟨fun b hb => hvec b (List.mem_cons_of_mem _ hb), hdeg.2⟩ hc with ⟨hm, h0⟩ | ⟨b', hb', c', hc', heq⟩
        · exact .inl ⟨List.mem_cons_of_mem _ hm, h0⟩
        · exact .inr ⟨b', List.mem_cons_of_mem _ hb', c', List.mem_cons_of_mem _ hc', heq⟩
    · next hb =>
      obtain ⟨c', hc', rfl⟩ := List.mem_map.mp hc
      have hlen : b.length = c'.length :=
        (hvec b List.mem_cons_self).1.trans (hvec c' (List.mem_cons_of_mem _ hc')).1.symm
      exact .inr ⟨b, List.mem_cons_self, c', List.mem_cons_of_mem _ hc', rfl,
        degree_polyLow_mend row b c' hlen hb (hdeg.1 c' hc')⟩

theorem Echelon.exists_degree_eq {row : ByteSeq} {basis : List ByteSeq} (h : Echelon basis) {c : ByteSeq}
    (hc : c ∈ eliminate row basis) :
    c.length = 5 ∧ ∃ c' ∈ basis, (polyLow c).degree = (polyLow c').degree := by
  rcases mem_eliminate row basis h c hc with ⟨hm, -⟩ | ⟨b, -, c', hc', rfl, hdeg⟩
  · exact ⟨(h.1 c hm).1, c, hm, rfl⟩
  · exact ⟨by rw [length_mend, (h.1 c' hc').1], c', hc', hdeg⟩

/-- The elimination keeps the echelon. -/
theorem Echelon.eliminate {row : ByteSeq} {basis : List ByteSeq} (h : Echelon basis) :
    Echelon (Machine.eliminate row basis) := by
  refine ⟨fun c hc => ?_, ?_⟩
  · obtain ⟨hlen, c', hc', hdeg⟩ := h.exists_degree_eq hc
    refine ⟨hlen, fun h0 => (h.1 c' hc').2 ?_⟩
    rw [← degree_eq_bot, ← hdeg, h0, degree_zero]
  · induction basis with
    | nil => exact List.Pairwise.nil
    | cons b rest ih =>
      obtain ⟨hvec, hdeg⟩ := h
      rw [List.pairwise_cons] at hdeg
      have hrest : Echelon rest := ⟨fun c hc => hvec c (List.mem_cons_of_mem _ hc), hdeg.2⟩
      rw [eliminate_cons]
      split
      · refine List.pairwise_cons.mpr ⟨fun c hc => ?_, ih hrest⟩
        obtain ⟨-, c', hc', heq⟩ := hrest.exists_degree_eq hc
        rw [heq]
        exact hdeg.1 c' hc'
      · next hb =>
        have hmend : ∀ c ∈ rest, (polyLow (mend row b c)).degree = (polyLow c).degree := fun c hc =>
          degree_polyLow_mend row b c ((hvec b List.mem_cons_self).1.trans (hrest.1 c hc).1.symm) hb (hdeg.1 c hc)
        rw [List.pairwise_map]
        refine hdeg.2.imp_of_mem fun hc hd hlt => ?_
        rw [hmend _ hc, hmend _ hd]
        exact hlt

/-- At most one vector leaves. -/
theorem length_le_length_eliminate (row : ByteSeq) (basis : List ByteSeq) :
    basis.length ≤ (eliminate row basis).length + 1 := by
  induction basis with
  | nil => simp
  | cons b rest ih =>
    rw [eliminate_cons]
    split
    · simpa using ih
    · simp

/-- An equation all vectors of the basis meet is met after the elimination. -/
theorem linearForm_eliminate (row : ByteSeq) (basis : List ByteSeq) (h : Echelon basis)
    (N : BigField[X] →ₗ[BigField] BigField) (hN : ∀ b ∈ basis, N (polyLow b) = 0) :
    ∀ c ∈ eliminate row basis, N (polyLow c) = 0 := by
  intro c hc
  rcases mem_eliminate row basis h c hc with ⟨hm, -⟩ | ⟨b, hb, c', hc', rfl, -⟩
  · exact hN c hm
  · rw [polyLow_mend row b c' ((h.1 b hb).1.trans (h.1 c' hc').1.symm), ← smul_eq_C_mul, ← smul_eq_C_mul, map_add,
      map_smul, map_smul, hN b hb, hN c' hc', smul_zero, smul_zero, add_zero]

/-- The new equation is met after the elimination. -/
theorem linearForm_eliminate_row (row : ByteSeq) (basis : List ByteSeq) (h : Echelon basis)
    (M : BigField[X] →ₗ[BigField] BigField) (hM : ∀ b, b.length = 5 → value (gdot row b) = M (polyLow b)) :
    ∀ c ∈ eliminate row basis, M (polyLow c) = 0 := by
  intro c hc
  rcases mem_eliminate row basis h c hc with ⟨hm, h0⟩ | ⟨b, hb, c', hc', rfl, -⟩
  · rw [← hM c (h.1 c hm).1, h0, value_zero]
  · rw [polyLow_mend row b c' ((h.1 b hb).1.trans (h.1 c' hc').1.symm), ← smul_eq_C_mul, ← smul_eq_C_mul, map_add,
      map_smul, map_smul, ← hM b (h.1 b hb).1, ← hM c' (h.1 c' hc').1, smul_eq_mul, smul_eq_mul,
      mul_comm, CharTwo.add_self_eq_zero]

theorem echelon_unitVectors : Echelon unitVectors := by
  have hpoly : ∀ i, polyLow (rep 0#8 i ++ [1#8] ++ rep 0#8 (Config.rsT - i)) = X ^ i := by
    intro i
    have hzeros : polyLow (rep 0#8 (Config.rsT - i)) = 0 := by
      simpa [polyLow] using polyLow_replicate_zero_append (Config.rsT - i) []
    rw [List.append_assoc, polyLow_replicate_zero_append, List.singleton_append, polyLow, hzeros]
    simp
  refine ⟨fun b hb => ?_, ?_⟩
  · obtain ⟨i, hi, rfl⟩ := List.mem_map.mp hb
    have hi5 : i < 5 := List.mem_range.mp hi
    refine ⟨?_, by simp [hpoly, -List.append_assoc]⟩
    simp [rep, show Config.rsT = 4 from rfl]
    omega
  · rw [unitVectors, List.pairwise_map]
    refine List.pairwise_lt_range.imp fun hij => ?_
    rw [hpoly, hpoly, degree_X_pow, degree_X_pow]
    exact_mod_cast hij

/-- The basis after the first `n` equations. -/
def basisAfter (syn : ByteSeq) (n : Nat) : List ByteSeq :=
  (List.range n).foldl (fun basis k => eliminate ((syn.drop k).take (Config.rsT + 1)) basis) unitVectors

theorem errorLocator_eq (syn : ByteSeq) : errorLocator syn = (basisAfter syn 4).headD [] := rfl

theorem basisAfter_succ (syn : ByteSeq) (n : Nat) :
    basisAfter syn (n + 1) = eliminate ((syn.drop n).take 5) (basisAfter syn n) := by
  rw [basisAfter, List.range_succ, List.foldl_append]
  rfl

/-- After `n` equations: an echelon of at least `5 - n` vectors that meet all of them. -/
theorem basisAfter_spec (L : BigField[X] →ₗ[BigField] BigField) (syn : ByteSeq) (hsyn : Measures L 1 syn)
    (hlen : syn.length = 8) (n : Nat) (hn : n ≤ 4) :
    Echelon (basisAfter syn n) ∧ 5 ≤ (basisAfter syn n).length + n
      ∧ ∀ k, k < n → ∀ b ∈ basisAfter syn n, L (X ^ k * polyLow b) = 0 := by
  induction n with
  | zero => exact ⟨echelon_unitVectors, by simp [basisAfter, unitVectors, show Config.rsT = 4 from rfl], by simp⟩
  | succ n ih =>
    obtain ⟨hech, hcard, hmet⟩ := ih (by omega)
    have hgrow := length_le_length_eliminate ((syn.drop n).take 5) (basisAfter syn n)
    rw [basisAfter_succ]
    refine ⟨hech.eliminate, by omega, fun k hk => ?_⟩
    rcases Nat.lt_succ_iff_lt_or_eq.mp hk with hk | rfl
    · exact linearForm_eliminate _ _ hech (L.comp (LinearMap.mulLeft BigField (X ^ k))) (hmet k hk)
    · refine linearForm_eliminate_row _ _ hech (L.comp (LinearMap.mulLeft BigField (X ^ k))) fun b hb => ?_
      rw [((hsyn.drop k).take 5).gdot b (by simp [hlen]; omega), one_mul]
      rfl

/-- The error locator: not zero, of degree at most 4, and meeting the four recurrences (41_reed_solomon.md R137). -/
theorem errorLocator_spec (L : BigField[X] →ₗ[BigField] BigField) (syn : ByteSeq) (hsyn : Measures L 1 syn)
    (hlen : syn.length = 8) :
    polyLow (errorLocator syn) ≠ 0 ∧ (polyLow (errorLocator syn)).natDegree ≤ 4
      ∧ ∀ k, k < 4 → L (X ^ k * polyLow (errorLocator syn)) = 0 := by
  obtain ⟨hech, hcard, hmet⟩ := basisAfter_spec L syn hsyn hlen 4 le_rfl
  have hmem : errorLocator syn ∈ basisAfter syn 4 := by
    rw [errorLocator_eq]
    cases hb : basisAfter syn 4 with
    | nil => simp [hb] at hcard
    | cons b rest => simp
  obtain ⟨hfive, hne⟩ := hech.1 _ hmem
  refine ⟨hne, ?_, fun k hk => hmet k hk _ hmem⟩
  have hdeg := degree_polyLow_lt (errorLocator syn)
  rw [hfive, degree_eq_natDegree hne] at hdeg
  exact Nat.lt_succ_iff.mp (WithBot.coe_lt_coe.mp hdeg)

/-- Every error's locator is a root of the error locator when there are at most four errors (41_reed_solomon.md R137):
the other errors leave a cofactor of degree at most 3, a combination of the four recurrences. -/
theorem eval_errorLocator_eq_zero (e syn : ByteSeq) (hsyn : Measures (errorForm e) 1 syn) (hlen : syn.length = 8)
    (hcard : (errorPositions e).card ≤ 4) (i : Nat) (hi : i ∈ errorPositions e) :
    (polyLow (errorLocator syn)).eval (locator i) = 0 := by
  obtain ⟨-, -, hmet⟩ := errorLocator_spec (errorForm e) syn hsyn hlen
  refine eval_eq_zero_of_errorForm e i hi _ ?_
  rw [← LinearMap.mulLeft_apply (R := BigField), ← LinearMap.comp_apply]
  refine linearForm_eq_zero _ 4 (fun k hk => ?_) _ ?_
  · rw [LinearMap.comp_apply, LinearMap.mulLeft_apply, mul_comm]
    exact hmet k hk
  · rw [natDegree_locatorPoly, Finset.card_erase_of_mem hi]
    have := Finset.card_pos.mpr ⟨i, hi⟩
    omega

end Sys2Proof.ReedSolomon
end

section
/-!
PROOFS. The result of the decoder (41_reed_solomon.md R129): within four symbols of a code word it answers that code
word, and with no code word so near it is uncorrectable.
-/

namespace Sys2Proof.ReedSolomon

open Sys2Proof Sys2Proof.Machine Sys2Proof.Safety Sys2Proof.Galois Polynomial

/-! ### The value of one error -/

theorem value_foldl_scale (x : Byte) (ys : ByteSeq) (d : Byte) :
    value (ys.foldl (fun d y => gmul d (gadd x y)) d) = value d * (rootsPoly ys).eval (value x) := by
  induction ys generalizing d with
  | nil => simp [rootsPoly]
  | cons y ys ih => simp [ih, rootsPoly_cons, mul_assoc, CharTwo.sub_eq_add]

/-- The locators other than `x`. -/
def others (xs : ByteSeq) (x : Byte) : ByteSeq := xs.filter fun y => y != x

theorem mem_others (xs : ByteSeq) (x y : Byte) : y ∈ others xs x ↔ y ∈ xs ∧ y ≠ x := by simp [others]

/-- The scale of an error's value is the product of differing locators' differences. -/
theorem value_scale (xs : ByteSeq) (x : Byte) :
    value ((others xs x).foldl (fun d y => gmul d (gadd x y)) 1#8) = (rootsPoly (others xs x)).eval (value x) := by
  rw [value_foldl_scale, value_one, one_mul]

theorem scale_ne_zero (xs : ByteSeq) (x : Byte) :
    (others xs x).foldl (fun d y => gmul d (gadd x y)) 1#8 ≠ 0#8 := by
  rw [Ne, ← value_eq_zero_iff, value_scale, eval_rootsPoly_eq_zero_iff, mem_others]
  exact fun h => h.2 rfl

theorem errorValue_eq (syn xs : ByteSeq) (x : Byte) :
    errorValue syn xs x =
      gdiv (((others xs x).foldl (fun s y => annihilate y s) syn).headD 0#8)
        ((others xs x).foldl (fun d y => gmul d (gadd x y)) 1#8) := rfl

/-- No division of the decoder is by zero (notes/assumptions/11.md). -/
theorem exists_errorValue (syn xs : ByteSeq) (x : Byte) : ∃ b, errorValue syn xs x = .ok b :=
  ⟨_, gdiv_of_ne_zero _ _ (scale_ne_zero xs x)⟩

/-- When the other locators isolate the error at `x`, its value is found (41_reed_solomon.md R137). -/
theorem errorValue_of_isolated (L : BigField[X] →ₗ[BigField] BigField) (syn xs : ByteSeq) (x b : Byte)
    (hsyn : Measures L 1 syn) (hlen : xs.length < syn.length)
    (h : L (rootsPoly (others xs x)) = value b * (rootsPoly (others xs x)).eval (value x)) :
    errorValue syn xs x = .ok b := by
  have hne : (others xs x).foldl (fun s y => annihilate y s) syn ≠ [] := by
    have hle : (others xs x).length ≤ xs.length := List.length_filter_le _ _
    rw [← List.length_pos_iff, length_foldl_annihilate]
    omega
  rw [errorValue_eq]
  refine gdiv_of_value_eq _ _ _ (scale_ne_zero xs x) ?_
  rw [(hsyn.foldl_annihilate (others xs x)).headD hne, one_mul, h, value_scale]

/-! ### The pattern of errors -/

/-- The error at locator `x`: zero off the locators `xs`. -/
def errorAt (syn xs : ByteSeq) (x : Byte) : Except Stop Byte := if x ∈ xs then errorValue syn xs x else .ok 0#8

theorem errorPattern_cons (syn xs : ByteSeq) (x : Byte) (rest : ByteSeq) :
    errorPattern syn xs (x :: rest) =
      (errorAt syn xs x >>= fun e => errorPattern syn xs rest >>= fun es => .ok (e :: es)) := by
  rw [errorPattern, errorAt]
  by_cases h : x ∈ xs
  · rw [List.contains_iff_mem.mpr h, if_pos h]
    rfl
  · rw [Bool.eq_false_iff.mpr (mt List.contains_iff_mem.mp h), if_neg h]
    rfl

theorem errorPattern_of_forall₂ (syn xs ls e : ByteSeq) (h : List.Forall₂ (fun x b => errorAt syn xs x = .ok b) ls e) :
    errorPattern syn xs ls = .ok e := by
  induction h with
  | nil => rfl
  | cons hx _ ih => rw [errorPattern_cons, hx, ok_bind, ih, ok_bind]

theorem exists_errorPattern (syn xs ls : ByteSeq) : ∃ e, errorPattern syn xs ls = .ok e := by
  have hat : ∀ x, ∃ b, errorAt syn xs x = .ok b := fun x => by
    rw [errorAt]
    split
    · exact exists_errorValue syn xs x
    · exact ⟨_, rfl⟩
  induction ls with
  | nil => exact ⟨[], rfl⟩
  | cons x ls ih =>
    obtain ⟨b, hb⟩ := hat x
    obtain ⟨e, he⟩ := ih
    exact ⟨b :: e, by rw [errorPattern_cons, hb, ok_bind, he, ok_bind]⟩

/-! ### The roots of the error locator -/

theorem locators_eq : locators = (List.range 32).map fun i => gexp (31 - i) := by decide +kernel

theorem nodup_locators : locators.Nodup := by
  rw [locators_eq]
  refine List.nodup_range.map_on fun i hi j hj h => ?_
  refine (locator_inj (List.mem_range.mp hi) (List.mem_range.mp hj)).mp ?_
  simpa [locator] using congrArg value h

/-- The locators that are roots of the error locator. -/
def locatorRoots (syn : ByteSeq) : ByteSeq := locators.filter fun x => gevalLow (errorLocator syn) x == 0#8

theorem correct_eq (r : ByteSeq) :
    correct r =
      (errorPattern (syndromes r) (locatorRoots (syndromes r)) locators >>= fun e => .ok (xorInto r e)) := rfl

theorem mem_locatorRoots (syn : ByteSeq) (x : Byte) :
    x ∈ locatorRoots syn ↔ x ∈ locators ∧ (polyLow (errorLocator syn)).eval (value x) = 0 := by
  simp [locatorRoots, ← value_gevalLow]

theorem gexp_mem_locatorRoots (syn : ByteSeq) (i : Nat) (hi : i < 32) :
    gexp (31 - i) ∈ locatorRoots syn ↔ (polyLow (errorLocator syn)).eval (locator i) = 0 := by
  have hmem : gexp (31 - i) ∈ locators := by
    rw [locators_eq]
    exact List.mem_map.mpr ⟨i, List.mem_range.mpr hi, rfl⟩
  rw [mem_locatorRoots, value_gexp, ← locator]
  exact and_iff_right hmem

/-- The error locator has at most four roots. -/
theorem length_locatorRoots_le (L : BigField[X] →ₗ[BigField] BigField) (syn : ByteSeq) (hsyn : Measures L 1 syn)
    (hlen : syn.length = 8) : (locatorRoots syn).length ≤ 4 := by
  obtain ⟨hne, hdeg, -⟩ := errorLocator_spec L syn hsyn hlen
  have hnodup : ((locatorRoots syn).map value).Nodup := (nodup_locators.filter _).map value_injective
  have hroots : (((locatorRoots syn).map value : List BigField) : Multiset BigField)
      ≤ (polyLow (errorLocator syn)).roots := by
    refine (Multiset.le_iff_subset (Multiset.coe_nodup.mpr hnodup)).mpr fun y hy => ?_
    obtain ⟨x, hx, rfl⟩ := List.mem_map.mp (Multiset.mem_coe.mp hy)
    exact (mem_roots hne).mpr ((mem_locatorRoots syn x).mp hx).2
  have hcard := (Multiset.card_le_card hroots).trans (card_roots' _)
  rw [Multiset.coe_card, List.length_map] at hcard
  exact hcard.trans hdeg

/-! ### Bounded-distance decoding -/

/-- The error at each position of a word within four symbols of a code word. -/
theorem errorAt_of_near (e syn : ByteSeq) (hsyn : Measures (errorForm e) 1 syn) (hlen : syn.length = 8)
    (hcard : (errorPositions e).card ≤ 4) (i : Nat) (hi : i < 32) :
    errorAt syn (locatorRoots syn) (gexp (31 - i)) = .ok (e.getD i 0#8) := by
  have hroot : ∀ j, j < 32 → e.getD j 0#8 ≠ 0#8 → gexp (31 - j) ∈ locatorRoots syn := fun j hj hne =>
    (gexp_mem_locatorRoots syn j hj).mpr
      (eval_errorLocator_eq_zero e syn hsyn hlen hcard j ((mem_errorPositions e j).mpr ⟨hj, hne⟩))
  rw [errorAt]
  split
  · have hfew := length_locatorRoots_le _ syn hsyn hlen
    refine errorValue_of_isolated _ syn _ _ _ hsyn (by omega) ?_
    rw [value_gexp, ← locator]
    refine errorForm_of_isolated e _ i hi fun j hj hne hji => ?_
    rw [locator, ← value_gexp, eval_rootsPoly_eq_zero_iff, mem_others]
    refine ⟨hroot j hj hne, fun h => hji ((locator_inj hj hi).mp ?_)⟩
    simpa [locator] using congrArg value h
  · next hmem =>
    by_contra hne
    exact hmem (hroot i hi fun h0 => hne (by rw [h0]))

/-- A word within four symbols of a code word is corrected to it. -/
theorem correct_of_near (r c : ByteSeq) (hr : r.length = 32) (hc : isCodeword c = true) (hd : Machine.dist r c ≤ 4) :
    correct r = .ok c := by
  have hclen := length_of_isCodeword c hc
  have hcard : (errorPositions (xorInto r c)).card ≤ 4 := by
    rwa [errorPositions_xorInto r c (by omega), ← dist_eq_card r c hr hclen]
  have hpattern : errorPattern (syndromes r) (locatorRoots (syndromes r)) locators = .ok (xorInto r c) := by
    refine errorPattern_of_forall₂ _ _ _ _ ?_
    rw [locators_eq]
    refine List.forall₂_iff_get.mpr ⟨by simp [hr], fun i hi hi' => ?_⟩
    have hi32 : i < 32 := by simpa using hi
    have hat := errorAt_of_near _ _ (measures_syndromes r c hr hc) (length_syndromes r) hcard i hi32
    rw [List.getD_eq_getElem _ _ hi'] at hat
    simpa using hat
  rw [correct_eq, hpattern, ok_bind, xorInto_xorInto r c (by omega)]

/-- Within four symbols of a code word: its data and its distance (41_reed_solomon.md R129). -/
theorem rsDecode_of_near (r c : ByteSeq) (hr : r.length = 32) (hc : isCodeword c = true) (hd : Machine.dist r c ≤ 4) :
    rsDecode r = .ok (c.take 24, Machine.dist r c) := by
  cases hcode : isCodeword r with
  | true =>
    obtain rfl := codeword_unique r r c hr hcode hc (by rw [dist_self]; omega) hd
    rw [dist_self, rsDecode, hcode]
    rfl
  | false =>
    have hcheck : (isCodeword c && Nat.ble (Machine.dist r c) Config.rsT) = true := by
      rw [hc, Bool.true_and]
      exact Nat.ble_eq_true_of_le hd
    rw [rsDecode, hcode, correct_of_near r c hr hc hd, ok_bind, hcheck]
    rfl

/-- With no code word within four symbols: uncorrectable (41_reed_solomon.md R129, R131). -/
theorem rsDecode_of_far (r : ByteSeq) (h : ∀ c, isCodeword c = true → 4 < Machine.dist r c) :
    rsDecode r = .error (.status .fecUncorrectable) := by
  have hcode : isCodeword r = false := by
    by_contra hr
    have := h r (by simpa using hr)
    rw [dist_self] at this
    omega
  obtain ⟨e, he⟩ := exists_errorPattern (syndromes r) (locatorRoots (syndromes r)) locators
  have hcheck : (isCodeword (xorInto r e) && Nat.ble (Machine.dist r (xorInto r e)) Config.rsT) = false := by
    by_contra hgood
    simp only [Bool.not_eq_false, Bool.and_eq_true, Nat.ble_eq] at hgood
    exact Nat.not_lt.mpr hgood.2 (h _ hgood.1)
  rw [rsDecode, hcode, correct_eq, he, ok_bind, ok_bind, hcheck]
  rfl

end Sys2Proof.ReedSolomon
end

section
/-!
PROOFS. The operations RS.ENC, RS.DEC, FEC.ENC and FEC.DEC (41_reed_solomon.md R130 to R138): their answers by the length
of their input, and block by block.
-/

namespace Sys2Proof.ReedSolomon

open Sys2Proof Sys2Proof.Machine Sys2Proof.Safety Sys2Proof.Galois

/-! ### RS.ENC and RS.DEC -/

/-- Settles O33: past the length checks RS.ENC answers `rsEncode`, a code word. -/
theorem rsEncAnswersTheCodeWordOfItsData : Obligations.RsEncAnswersTheCodeWordOfItsData := by
  intro d
  refine ⟨fun hlong s => ?tooLong, fun hlimit hlen s => ?badLength,
    fun hlen => ⟨rsParity d, length_rsParity d hlen, isCodeword_rsEncode d hlen, fun s => ?encoded⟩⟩
  case tooLong => rw [exec_rsEnc, rsEncOp_eq, if_pos hlong]; rfl
  case badLength => rw [exec_rsEnc, rsEncOp_eq, if_neg (by omega), if_pos hlen]; rfl
  case encoded => rw [exec_rsEnc, rsEncOp_eq, if_neg (by omega), if_neg (by omega)]; rfl

/-- RS.DEC of a word within four symbols of a code word (41_reed_solomon.md R131). -/
theorem exec_rsDec_of_near (r c : ByteSeq) (hr : r.length = 32) (hc : isCodeword c = true) (hd : Machine.dist r c ≤ 4)
    (s : State) : exec (.rsDec r) s = .next (s.complete (Response.okDecoded (c.take 24) (Machine.dist r c))) := by
  rw [exec_rsDec, rsDecOp_eq, if_neg (by omega), if_neg (by omega), rsDecode_of_near r c hr hc hd]
  rfl

/-- RS.DEC of a word with no code word within four symbols (41_reed_solomon.md R131). -/
theorem exec_rsDec_of_far (r : ByteSeq) (hr : r.length = 32) (h : ∀ c, isCodeword c = true → 4 < Machine.dist r c)
    (s : State) : exec (.rsDec r) s = .next (s.complete (failure 0x10#8)) := by
  rw [exec_rsDec, rsDecOp_eq, if_neg (by omega), if_neg (by omega), rsDecode_of_far r h]
  rfl

theorem near_or_far (r : ByteSeq) :
    (∃ c, isCodeword c = true ∧ Machine.dist r c ≤ 4) ∨ ∀ c, isCodeword c = true → 4 < Machine.dist r c := by
  by_cases h : ∃ c, isCodeword c = true ∧ Machine.dist r c ≤ 4
  · exact .inl h
  · exact .inr fun c hc => Nat.lt_of_not_le fun hd => h ⟨c, hc, hd⟩

/-- Settles O34, by the two results of the decoder. -/
theorem rsDecIsBoundedDistanceDecoding : Obligations.RsDecIsBoundedDistanceDecoding := by
  intro r
  refine ⟨fun hlong s => ?tooLong, fun hlimit hlen s => ?badLength,
    fun c hr hc hd => exec_rsDec_of_near r c hr hc hd,
    fun hr => (near_or_far r).imp_right fun hfar => ⟨hfar, exec_rsDec_of_far r hr hfar⟩⟩
  case tooLong => rw [exec_rsDec, rsDecOp_eq, if_pos hlong]; rfl
  case badLength => rw [exec_rsDec, rsDecOp_eq, if_neg (by omega), if_pos hlen]; rfl

/-- A word plus an error pattern lies at the pattern's weight from the word (41_reed_solomon.md R128). -/
theorem dist_zipWith_xor (c e : ByteSeq) (hc : c.length = 32) (he : e.length = 32) :
    Machine.dist (List.zipWith (· ^^^ ·) c e) c = Machine.dist e (List.replicate 32 0x00#8) := by
  rw [← xorInto_eq_zipWith c e (hc.trans he.symm), dist_eq_card _ c (by simp [hc]) hc,
    dist_eq_card e _ he List.length_replicate]
  congr 1
  ext i
  rw [mem_diffPositions, mem_diffPositions, getD_xorInto c e (by omega)]
  refine and_congr_right fun hi => not_congr ?_
  rw [← value_injective.eq_iff, value_gadd, add_eq_left, value_eq_zero_iff, List.getD_replicate _ hi]

/-- Settles O35: the encoding lies at the error pattern's weight from the received word, and any nearer code word is the
encoding of its own data. -/
theorem rsDecCorrectsUpToFourErrorsOfAnEncoding : Obligations.RsDecCorrectsUpToFourErrorsOfAnEncoding := by
  intro d e hd he
  have henc := length_rsEncode d hd
  have hweight := dist_zipWith_xor (rsEncode d) e henc he
  have hr : (List.zipWith (· ^^^ ·) (rsEncode d) e).length = 32 := by simp [henc, he]
  generalize List.zipWith (· ^^^ ·) (rsEncode d) e = r at hr hweight
  rw [← hweight]
  refine ⟨fun hnear s => ?_, fun _ => ?_⟩
  · rw [exec_rsDec_of_near r _ hr (isCodeword_rsEncode d hd) hnear, take_rsEncode d hd, Response.okDecoded_eq]
  · rcases near_or_far r with ⟨c, hc, hnear⟩ | hfar
    · refine .inr ⟨c.take 24, Machine.dist r c, by simp [length_of_isCodeword c hc], hnear, by rw [rsEncode_take c hc],
        exec_rsDec_of_near r c hr hc hnear⟩
    · exact .inl (exec_rsDec_of_far r hr hfar)

/-! ### The words of a sequence -/

theorem word_zero (b : ByteSeq) : word b 0 = b.take 32 := rfl

theorem word_succ (b : ByteSeq) (j : Nat) : word b (j + 1) = word (b.drop 32) j := by
  rw [word, word, slice, slice, List.drop_drop, Nat.mul_succ, Nat.add_comm 32]

theorem length_word (b : ByteSeq) (j m : Nat) (hb : b.length = 32 * m) (hj : j < m) : (word b j).length = 32 := by
  simp [word, slice, hb]
  omega

/-- Word `j` of a concatenation of words of 32 bytes is the `j`th of them. -/
theorem word_flatMap {α : Type} (f : α → ByteSeq) (l : List α) (hf : ∀ a ∈ l, (f a).length = 32) (j : Nat)
    (hj : j < l.length) : word (l.flatMap f) j = f l[j] := by
  induction l generalizing j with
  | nil => simp at hj
  | cons a l ih =>
    have ha : (f a).length = 32 := hf a List.mem_cons_self
    rw [List.flatMap_cons]
    cases j with
    | zero => rw [word_zero, List.take_left' ha]; rfl
    | succ j =>
      rw [word_succ, List.drop_left' ha, ih (fun b hb => hf b (List.mem_cons_of_mem _ hb)) j (by simpa using hj)]
      rfl

theorem length_flatMap_words {α : Type} (f : α → ByteSeq) (l : List α) (hf : ∀ a ∈ l, (f a).length = 32) :
    (l.flatMap f).length = 32 * l.length := by
  rw [List.length_flatMap, List.map_congr_left hf]
  simp [Nat.mul_comm]

/-! ### FEC.ENC -/

/-- Block `j` of a byte sequence, with zero bytes past its end (41_reed_solomon.md R132). -/
def block (b : ByteSeq) (j : Nat) : ByteSeq := (List.range 24).map fun i => b.getD (24 * j + i) 0#8

theorem length_block (b : ByteSeq) (j : Nat) : (block b j).length = 24 := by simp [block]

theorem take_append_rep_eq_block (b : ByteSeq) :
    b.take 24 ++ rep 0#8 (24 - (b.take 24).length) = block b 0 := by
  refine List.ext_getElem (by simp [block, rep]) fun i h _ => ?_
  rw [List.getElem_append]
  split
  · next hi =>
    have : i < b.length := by simp at hi; omega
    simp [block, this]
  · next hi =>
    have : b.length ≤ i := by simp [rep] at h hi; omega
    simp [block, rep, this]

theorem block_succ (b : ByteSeq) (j : Nat) : block b (j + 1) = block (b.drop 24) j := by
  refine List.map_congr_left fun i _ => ?_
  simp [List.getElem?_drop, Nat.mul_succ, Nat.add_comm, Nat.add_left_comm]

/-- The split into padded blocks (41_reed_solomon.md R132). -/
theorem splitBlocks_eq (m : Nat) (b : ByteSeq) : splitBlocks m b = (List.range m).map (block b) := by
  induction m generalizing b with
  | zero => rfl
  | succ m ih =>
    rw [splitBlocks, show Config.rsK = 24 from rfl, ih, List.range_succ_eq_map, List.map_cons, List.map_map,
      take_append_rep_eq_block]
    exact congrArg _ (List.map_congr_left fun j _ => (block_succ b j).symm)

/-- Settles O36: word `j` of the output is the encoding of block `j`. -/
theorem fecEncSplitsPadsAndEncodesEachBlock : Obligations.FecEncSplitsPadsAndEncodesEachBlock := by
  intro b
  have hlen : ∀ a ∈ split b, (rsEncode a).length = 32 := fun a ha => by
    rw [split, splitBlocks_eq] at ha
    obtain ⟨j, -, rfl⟩ := List.mem_map.mp ha
    exact length_rsEncode _ (length_block b j)
  have hcount : (split b).length = (b.length + 23) / 24 := by
    rw [split, splitBlocks_eq, List.length_map, List.length_range]
    rfl
  refine ⟨fun hlong s => ?tooLong,
    fun hlimit => ⟨(split b).flatMap rsEncode, ?length, fun j hj => ?word, fun s => ?encoded⟩⟩
  case tooLong => rw [exec_fecEnc, fecEncOp_eq, if_pos hlong]; rfl
  case length => rw [length_flatMap_words rsEncode _ hlen, hcount]
  case word =>
    rw [word_flatMap rsEncode _ hlen j (by rw [hcount]; exact hj)]
    simp only [split, splitBlocks_eq, List.getElem_map, List.getElem_range]
    rfl
  case encoded => rw [exec_fecEnc, fecEncOp_eq, if_neg (by omega)]; rfl

/-! ### FEC.DEC -/

theorem fecDecodeBlocks_succ (m : Nat) (b : ByteSeq) (hb : 32 ≤ b.length) :
    fecDecodeBlocks (m + 1) b =
      (rsDecode (word b 0) >>= fun x => fecDecodeBlocks m (b.drop 32) >>= fun y => .ok (x.1 ++ y.1, x.2 + y.2)) := by
  rw [fecDecodeBlocks, memRead_eq, show Config.rsN = 32 from rfl, if_pos (by omega), ok_bind]
  rfl

/-- Blocks that all lie within four symbols of code words: their data in order and the sum of the distances
(41_reed_solomon.md R134). -/
theorem fecDecodeBlocks_of_near (cs : List ByteSeq) (b : ByteSeq) (hb : b.length = 32 * cs.length)
    (h : ∀ j, j < cs.length → isCodeword (cs.getD j []) = true ∧ Machine.dist (word b j) (cs.getD j []) ≤ 4) :
    fecDecodeBlocks cs.length b =
      .ok (cs.flatMap (List.take 24),
        ((List.range cs.length).map fun j => Machine.dist (word b j) (cs.getD j [])).sum) := by
  induction cs generalizing b with
  | nil => rfl
  | cons c cs ih =>
    rw [List.length_cons] at hb
    obtain ⟨hc, hd⟩ := h 0 (by simp)
    have hrest := ih (b.drop 32) (by simp [hb]; omega) fun j hj => by
      rw [← word_succ]
      exact h (j + 1) (by simpa using hj)
    rw [List.length_cons, fecDecodeBlocks_succ _ _ (by omega),
      rsDecode_of_near _ c (length_word b 0 (cs.length + 1) hb (by omega)) hc hd, ok_bind, hrest, ok_bind,
      List.range_succ_eq_map, List.map_cons, List.map_map, List.sum_cons]
    simp only [← word_succ]
    rfl

/-- One block with no code word within four symbols fails the whole (41_reed_solomon.md R134). -/
theorem fecDecodeBlocks_of_far (m : Nat) (b : ByteSeq) (hb : b.length = 32 * m) (j : Nat) (hj : j < m)
    (h : ∀ c, isCodeword c = true → 4 < Machine.dist (word b j) c) :
    fecDecodeBlocks m b = .error (.status .fecUncorrectable) := by
  induction m generalizing b j with
  | zero => omega
  | succ m ih =>
    rw [fecDecodeBlocks_succ m b (by omega)]
    rcases near_or_far (word b 0) with ⟨c, hc, hd⟩ | hfar
    · rw [rsDecode_of_near _ c (length_word b 0 (m + 1) hb (by omega)) hc hd, ok_bind]
      cases j with
      | zero => exact absurd hd (Nat.not_le.mpr (h c hc))
      | succ j =>
        rw [ih (b.drop 32) (by simp [hb]; omega) j (by omega) (word_succ b j ▸ h)]
        rfl
    · rw [rsDecode_of_far _ hfar]
      rfl

/-- Settles O37, by induction on the blocks: each is decoded by `rsDecode_of_near` or fails by `rsDecode_of_far`. -/
theorem fecDecDecodesEveryBlockOrFails : Obligations.FecDecDecodesEveryBlockOrFails := by
  intro b
  refine ⟨fun hlong s => ?tooLong, fun hlimit hpart s => ?partialWord, fun cs hlimit hlen hnear s => ?decoded,
    fun hlimit hwhole => ?decide⟩
  case tooLong => rw [exec_fecDec, fecDecOp_eq, if_pos hlong]; rfl
  case partialWord => rw [exec_fecDec, fecDecOp_eq, if_neg (by omega), if_pos hpart]; rfl
  case decoded =>
    rw [exec_fecDec, fecDecOp_eq, if_neg (by omega), if_neg (by omega), show b.length / 32 = cs.length by omega,
      fecDecodeBlocks_of_near cs b hlen hnear]
    rfl
  case decide =>
    by_cases hall : ∀ j, j < b.length / 32 → ∃ c : ByteSeq, isCodeword c = true ∧ Machine.dist (word b j) c ≤ 4
    · exact .inl hall
    · simp only [not_forall] at hall
      obtain ⟨j, hj, hnone⟩ := hall
      have hfar := (near_or_far (word b j)).resolve_left hnone
      refine .inr ⟨⟨j, hj, hfar⟩, fun s => ?_⟩
      rw [exec_fecDec, fecDecOp_eq, if_neg (by omega), if_neg (by omega),
        fecDecodeBlocks_of_far _ b (by omega) j hj hfar]
      rfl

end Sys2Proof.ReedSolomon
end

section
/-!
PROOFS. The integrity function (42_framer.md R164): a shift of the CRC is a multiplication by `x` modulo its polynomial,
so each byte shifts the message so far by eight places and adds its own.
-/

namespace Sys2Proof.Crc

open Sys2Proof Sys2Proof.Machine Sys2Proof.Safety Sys2Proof.Galois Polynomial

/-! ### One shift -/

/-- A shift of a bit vector is a multiplication by `x` once the bit shifted out is counted. -/
theorem toPoly_shiftLeft_one_add (n : Nat) (a : BitVec (n + 1)) :
    toPoly (a <<< 1) + (if a.getLsbD n then X ^ (n + 1) else 0) = X * toPoly a := by
  simp only [toPoly, Finset.mul_sum, mul_ite, mul_zero, ← pow_succ']
  rw [Finset.sum_range_succ', Finset.sum_range_succ (n := n)]
  congr 1
  rw [show (a <<< 1).getLsbD 0 = false by simp, if_neg Bool.false_ne_true, add_zero]
  refine Finset.sum_congr rfl fun i hi => ?_
  have hlt := Finset.mem_range.mp hi
  simp [hlt, -BitVec.getLsbD_eq_getElem]

theorem toPoly_crcPoly : toPoly (0x11021#17) = X ^ 16 + toPoly Config.crcPoly := by
  simp [toPoly, Config.crcPoly, Finset.sum_range_succ]
  ring

/-- The pseudocode's shift is a multiplication by `x`, less the polynomial when a bit is shifted out
(42_framer.md R164). -/
theorem toPoly_crcShift (crc : U16) :
    toPoly (crcShift crc) + (if crc.getLsbD 15 then toPoly (0x11021#17) else 0) = X * toPoly crc := by
  have hshift := toPoly_shiftLeft_one_add 15 crc
  unfold crcShift
  cases h : crc.getLsbD 15
  · simpa only [h, Bool.false_eq_true, if_false, add_zero, cond_false] using hshift
  · simp only [h, if_true, cond_true] at hshift ⊢
    rw [toPoly_xor, toPoly_crcPoly, ← hshift]
    linear_combination CharTwo.add_self_eq_zero (toPoly Config.crcPoly)

/-- A byte in the upper half of the CRC register. -/
theorem toPoly_zeroExtend_shiftLeft (b : Byte) : toPoly (b.zeroExtend 16 <<< 8) = toPoly b * X ^ 8 := by
  simp [toPoly, Finset.sum_range_succ, add_mul, ite_mul, ← pow_add, ← pow_succ']

/-! ### The whole sequence, modulo the polynomial -/

section Modulus

variable {R : Type} [CommRing R] (f : (ZMod 2)[X] →+* R) (hf : f (toPoly (0x11021#17)) = 0)
include hf

theorem map_toPoly_crcShift (crc : U16) : f (toPoly (crcShift crc)) = f X * f (toPoly crc) := by
  rw [← map_mul, ← toPoly_crcShift, map_add]
  split <;> simp [hf]

theorem map_toPoly_crcShifts (n : Nat) (crc : U16) :
    f (toPoly (crcShifts n crc)) = f X ^ n * f (toPoly crc) := by
  induction n generalizing crc with
  | zero => simp [crcShifts]
  | succ n ih => rw [crcShifts, ih, map_toPoly_crcShift f hf, pow_succ, mul_assoc]

/-- A byte shifts the CRC by eight places and adds the byte 16 places up (42_framer.md R164). -/
theorem map_toPoly_crcByte (crc : U16) (b : Byte) :
    f (toPoly (crcByte crc b)) = f (toPoly crc) * f X ^ 8 + f (toPoly b) * f X ^ 16 := by
  rw [crcByte, map_toPoly_crcShifts f hf, toPoly_xor, toPoly_zeroExtend_shiftLeft, map_add, map_mul, map_pow]
  ring

/-- From any start value: the start value stands before the message (42_framer.md R164). -/
theorem map_toPoly_foldl_crcByte (bs : ByteSeq) (crc : U16) :
    f (toPoly (bs.foldl crcByte crc)) =
      f (toPoly crc) * f X ^ (8 * bs.length) + f (messagePoly bs) * f X ^ 16 := by
  induction bs generalizing crc with
  | nil => simp [messagePoly]
  | cons b bs ih =>
    rw [List.foldl_cons, ih, map_toPoly_crcByte f hf, messagePoly, map_add, map_mul, map_pow, List.length_cons]
    ring

end Modulus

/-- The CRC is congruent to the message times `x^16`, the initial value before it (42_framer.md R164). -/
theorem dvd_toPoly_crc16_sub (bs : ByteSeq) :
    toPoly (0x11021#17) ∣
      toPoly (crc16 bs) - (toPoly (0xFFFF#16) * X ^ (8 * bs.length) + messagePoly bs * X ^ 16) := by
  rw [← AdjoinRoot.mk_eq_mk, crc16, map_toPoly_foldl_crcByte _ AdjoinRoot.mk_self]
  simp only [map_add, map_mul, map_pow]
  rfl

/-! ### The pseudocode -/

/-- The shifts are the rule's conditional shift, repeated (42_framer.md R164). -/
theorem crcShifts_eq_iterate (n : Nat) (crc : U16) :
    crcShifts n crc =
      Nat.iterate (fun crc : U16 => if crc.getLsbD 15 = true then (crc <<< 1) ^^^ 0x1021#16 else crc <<< 1) n crc := by
  induction n generalizing crc with
  | zero => rfl
  | succ n ih =>
    rw [crcShifts, ih, Function.iterate_succ_apply, crcShift, Bool.cond_eq_ite]
    rfl

theorem crc16_append_singleton (bs : ByteSeq) (b : Byte) : crc16 (bs ++ [b]) = crcByte (crc16 bs) b := by
  simp [crc16]

/-- Settles O39: the remainder by `dvd_toPoly_crc16_sub`, the pseudocode by `crcShifts_eq_iterate`. -/
theorem crcIsTheRemainderByItsPolynomial : Obligations.CrcIsTheRemainderByItsPolynomial := by
  refine ⟨dvd_toPoly_crc16_sub, rfl, fun bs b => ?pseudocode, by decide +kernel⟩
  rw [crc16_append_singleton, crcByte, crcShifts_eq_iterate]

end Sys2Proof.Crc
end

section
/-!
PROOFS. The packet framer (42_framer.md R170 to R172): PF.DES answers a packet exactly when its input begins with the
packet's frame, so both directions of the round trip are read off one equivalence.
-/

namespace Sys2Proof.Framer

open Sys2Proof Sys2Proof.Machine Sys2Proof.Safety

/-! ### The fields of a frame -/

/-- The big-endian value of two bytes is their concatenation (20_memory.md R43). -/
theorem u16Of_eq_append (hi lo : Byte) : u16Of hi lo = hi ++ lo := by
  simp only [u16Of, BitVec.append_def, BitVec.shiftLeftZeroExtend_eq]
  rfl

@[simp] theorem u16Hi_append (hi lo : Byte) : u16Hi (hi ++ lo) = hi := BitVec.extractLsb'_append_eq_left

@[simp] theorem u16Lo_append (hi lo : Byte) : u16Lo (hi ++ lo) = lo := BitVec.extractLsb'_append_eq_right

@[simp] theorem u16Hi_append_u16Lo (v : U16) : u16Hi v ++ u16Lo v = v :=
  (BitVec.extractLsb'_append_extractLsb'_eq_extractLsb' (len₂ := 8) rfl).trans BitVec.extractLsb'_eq_self

@[simp] theorem flagsByte_ack (p : Packet) : (flagsByte p).getLsbD 0 = p.ack := by
  unfold flagsByte
  cases p.ack <;> cases p.retry <;> rfl

@[simp] theorem flagsByte_retry (p : Packet) : (flagsByte p).getLsbD 1 = p.retry := by
  unfold flagsByte
  cases p.ack <;> cases p.retry <;> rfl

theorem flagsByte_reserved (p : Packet) : (flagsByte p).extractLsb' 2 6 = 0#6 := by
  unfold flagsByte
  cases p.ack <;> cases p.retry <;> rfl

/-- The flags byte is fixed by its two flags and its reserved bits (42_framer.md R162). -/
theorem eq_flagsByte (f : Byte) (p : Packet) (hack : p.ack = f.getLsbD 0) (hretry : p.retry = f.getLsbD 1)
    (hreserved : f.extractLsb' 2 6 = 0#6) : f = flagsByte p := by
  refine BitVec.eq_of_getLsbD_eq fun i hi => ?_
  match i with
  | 0 => rw [flagsByte_ack, hack]
  | 1 => rw [flagsByte_retry, hretry]
  | j + 2 =>
    have hj := congrArg (·.getLsbD j) (hreserved.trans (flagsByte_reserved p).symm)
    have hlt : j < 6 := by omega
    simpa only [BitVec.getLsbD_extractLsb', hlt, decide_true, Bool.true_and, Nat.add_comm 2 j] using hj

@[simp] theorem length_frameBody (p : Packet) : (frameBody p).length = 7 + p.payload.length := by
  simp [frameBody]; omega

@[simp] theorem length_frameOf (p : Packet) : (frameOf p).length = 9 + p.payload.length := by
  simp [frameOf]; omega

/-! ### What PF.DES accepts -/

/-- The packet that the bytes of a frame spell (42_framer.md R171). -/
def spelledPacket (b : ByteSeq) : Packet :=
  { senderId := b.getD 0 0x00#8 ++ b.getD 1 0x00#8, receiverId := b.getD 2 0x00#8 ++ b.getD 3 0x00#8,
    sequence := b.getD 4 0x00#8, ack := (b.getD 5 0x00#8).getLsbD 0, retry := (b.getD 5 0x00#8).getLsbD 1,
    payload := slice b 7 (b.getD 6 0x00#8).toNat }

/-- The bytes pass every check of PF.DES, `len` being their length byte (42_framer.md R171). -/
structure PassesChecks (b : ByteSeq) (len : Nat) : Prop where
  limit : b.length ≤ 128
  payload : len ≤ 64
  whole : 9 + len ≤ b.length
  integrity : crc16 (b.take (7 + len)) = b.getD (7 + len) 0x00#8 ++ b.getD (8 + len) 0x00#8
  reserved : (b.getD 5 0x00#8).extractLsb' 2 6 = 0#6

/-- PF.DES answers the packet its input spells when every check passes, and nothing else (42_framer.md R171). -/
theorem pfDesOp_eq_ok_iff_passesChecks (b : ByteSeq) (p : Packet) :
    pfDesOp b = .ok p ↔ PassesChecks b (b.getD 6 0x00#8).toNat ∧ p = spelledPacket b := by
  rw [pfDesOp_eq, u16Of_eq_append, u16Of_eq_append, u16Of_eq_append]
  constructor
  · intro h
    split_ifs at h with hlimit hmin hlen hwhole hcrc hreserved
    refine ⟨⟨by omega, by omega, by omega, ?_, not_not.mp hreserved⟩, (Except.ok.inj h).symm⟩
    rw [not_not.mp hcrc, Nat.add_right_comm]
  · rintro ⟨⟨hlimit, hlen, hwhole, hcrc, hreserved⟩, rfl⟩
    rw [if_neg (by omega), if_neg (by omega), if_neg (by omega), if_neg (by omega),
      if_neg (not_not.mpr (by rw [hcrc, Nat.add_right_comm])), if_neg (not_not.mpr hreserved)]
    rfl

/-- Two more bytes taken, in the form in which PF.DES reads the integrity field. -/
theorem take_add_two (b : ByteSeq) (n : Nat) (h : n + 2 ≤ b.length) :
    b.take (n + 2) = b.take n ++ [b.getD n 0x00#8, b.getD (n + 1) 0x00#8] := by
  rw [List.take_succ_eq_append_getElem (by omega), List.take_succ_eq_append_getElem (by omega),
    List.getD_eq_getElem _ _ (by omega), List.getD_eq_getElem _ _ (by omega), List.append_assoc]
  rfl

theorem length_spelledPacket_payload (b : ByteSeq) (h : 9 + (b.getD 6 0x00#8).toNat ≤ b.length) :
    (spelledPacket b).payload.length = (b.getD 6 0x00#8).toNat := by
  simp only [spelledPacket, slice, List.length_take, List.length_drop]
  omega

/-- The header and payload of the spelled packet are the bytes that spell it (42_framer.md R161). -/
theorem frameBody_spelledPacket (b : ByteSeq) (h : PassesChecks b (b.getD 6 0x00#8).toNat) :
    frameBody (spelledPacket b) = b.take (7 + (b.getD 6 0x00#8).toNat) := by
  have hlen := length_spelledPacket_payload b h.whole
  rw [frameBody, hlen, ← eq_flagsByte (b.getD 5 0x00#8) (spelledPacket b) rfl rfl h.reserved]
  match b, h.whole with
  | b0 :: b1 :: b2 :: b3 :: b4 :: b5 :: b6 :: rest, _ =>
    simp [spelledPacket, slice, Nat.add_comm 7]

/-- The frame of the spelled packet is where it was read (42_framer.md R172). -/
theorem frameOf_spelledPacket (b : ByteSeq) (h : PassesChecks b (b.getD 6 0x00#8).toNat) :
    frameOf (spelledPacket b) = b.take (9 + (b.getD 6 0x00#8).toNat) := by
  have hwhole := h.whole
  rw [frameOf, frameBody_spelledPacket b h, h.integrity, u16Hi_append, u16Lo_append,
    show 9 + (b.getD 6 0x00#8).toNat = 7 + (b.getD 6 0x00#8).toNat + 2 by omega, take_add_two b _ (by omega),
    show 8 + (b.getD 6 0x00#8).toNat = 7 + (b.getD 6 0x00#8).toNat + 1 by omega]

/-- The length byte of a frame holds the payload's length (42_framer.md R163). -/
theorem lengthByte_frameOf_append (p : Packet) (z : ByteSeq) (hp : p.payload.length ≤ 64) :
    ((frameOf p ++ z).getD 6 0x00#8).toNat = p.payload.length := by
  have hlen : p.payload.length % 256 = p.payload.length := Nat.mod_eq_of_lt (by omega)
  simp [frameOf, frameBody, hlen]

/-- A frame spells its packet, whatever follows it (42_framer.md R171). -/
theorem spelledPacket_frameOf_append (p : Packet) (z : ByteSeq) (hp : p.payload.length ≤ 64) :
    spelledPacket (frameOf p ++ z) = p := by
  rw [spelledPacket, lengthByte_frameOf_append p z hp]
  simp [frameOf, frameBody, slice, -BitVec.getLsbD_eq_getElem]

/-- A frame passes every check, whatever follows it within the limit (42_framer.md R171, R172). -/
theorem passesChecks_frameOf_append (p : Packet) (z : ByteSeq) (hp : p.payload.length ≤ 64)
    (hz : (frameOf p ++ z).length ≤ 128) : PassesChecks (frameOf p ++ z) p.payload.length where
  limit := hz
  payload := hp
  whole := by simp
  integrity := by
    have hlow : 8 + p.payload.length - (7 + p.payload.length) = 1 := by omega
    simp [frameOf, List.getElem?_append, hlow]
  reserved := by simp [frameOf, frameBody, flagsByte_reserved]

/-- PF.DES answers `p` exactly for the inputs within the limit that begin with the frame of a valid `p`
(42_framer.md R172). -/
theorem pfDesOp_eq_ok_iff (b : ByteSeq) (p : Packet) :
    pfDesOp b = .ok p ↔ b.length ≤ 128 ∧ p.payload.length ≤ 64 ∧ frameOf p <+: b := by
  rw [pfDesOp_eq_ok_iff_passesChecks]
  constructor
  · rintro ⟨h, rfl⟩
    rw [frameOf_spelledPacket b h, length_spelledPacket_payload b h.whole]
    exact ⟨h.limit, h.payload, List.take_prefix _ _⟩
  · rintro ⟨hb, hp, z, rfl⟩
    rw [lengthByte_frameOf_append p z hp, spelledPacket_frameOf_append p z hp]
    exact ⟨passesChecks_frameOf_append p z hp hb, rfl⟩

/-! ### The operations -/

/-- PF.SER of a valid packet answers its frame (42_framer.md R170). -/
theorem exec_pfSer_of_valid (p : Packet) (h : p.payload.length ≤ 64) (s : State) :
    exec (.pfSer p) s = .next (s.complete (Response.okBytes (frameOf p))) := by
  rw [exec_pfSer, pfSerOp_eq, if_neg (by omega)]
  rfl

theorem exec_pfDes_of_ok (b : ByteSeq) (p : Packet) (h : pfDesOp b = .ok p) (s : State) :
    exec (.pfDes b) s = .next (s.complete (Response.okPacket p 0)) := by
  rw [exec_pfDes, h]
  rfl

theorem exec_pfDes_of_status (b : ByteSeq) (c : Status) (h : pfDesOp b = .error (.status c)) (s : State) :
    exec (.pfDes b) s = .next (s.complete (failure c.code)) := by
  rw [exec_pfDes, h]
  rfl

/-- PF.DES answers with a packet only where its body accepts that packet: a failure has none (60_exceptions.md R202). -/
theorem pfDesOp_eq_ok_of_exec (b : ByteSeq) (p : Packet) (x : Response) (s : State)
    (h : exec (.pfDes b) s = .next (s.complete x)) (hx : x.outPkt = some p) : pfDesOp b = .ok p := by
  rw [exec_pfDes] at h
  rcases hop : pfDesOp b with (c | f) | q
  · rw [hop] at h
    cases h
    cases hx
  · rw [hop] at h
    cases h
  · rw [hop] at h
    cases h
    cases hx
    rfl

/-- Settles O42: both directions are `pfDesOp_eq_ok_iff`. -/
theorem framerRoundTrip : Obligations.FramerRoundTrip := by
  refine ⟨fun p z hp hz => ?forth, fun b p x hx hpkt s => ?back⟩
  case forth =>
    have hop : pfDesOp (frameOf p ++ z) = .ok p :=
      (pfDesOp_eq_ok_iff _ p).mpr ⟨by simpa using hz, hp, List.prefix_append _ z⟩
    exact ⟨Response.okBytes (frameOf p), exec_pfSer_of_valid p hp, rfl, exec_pfDes_of_ok _ p hop⟩
  case back =>
    obtain ⟨-, hp, hprefix⟩ := (pfDesOp_eq_ok_iff b p).mp (pfDesOp_eq_ok_of_exec b p x State.reset (hx _) hpkt)
    rw [exec_pfSer_of_valid p hp, List.prefix_iff_eq_take.mp hprefix, length_frameOf]
    rfl

/-- Settles O40: the body is `frameBody`, its flags byte `flagsByte`. -/
theorem pfSerLaysOutTheFrame : Obligations.PfSerLaysOutTheFrame := by
  intro p
  refine ⟨fun hlong s => ?tooLarge, fun hp => ?laidOut⟩
  case tooLarge => rw [exec_pfSer, pfSerOp_eq, if_pos hlong]; rfl
  case laidOut =>
    exact ⟨flagsByte p, frameBody p, flagsByte_ack p, flagsByte_retry p, flagsByte_reserved p, rfl,
      exec_pfSer_of_valid p hp⟩

/-- Settles O41: the checks in the order of `pfDesOp_eq`; past them `pfDesOp_eq_ok_iff_passesChecks` names the
packet. -/
theorem pfDesChecksInOrderThenBuildsThePacket : Obligations.PfDesChecksInOrderThenBuildsThePacket := by
  rintro b len rfl
  refine ⟨fun hlong => ?tooLong, fun hmin => ?tooShort, fun hmin hlimit hlen => ?badLength,
    fun hmin hlimit hlen hcut => ?cut, fun hlimit hlen hwhole hcrc => ?mismatch,
    fun hlimit hlen hwhole hcrc hreserved => ?reserved, fun hlimit hlen hwhole hcrc hreserved => ?accepted⟩
  case tooLong => exact exec_pfDes_of_status b .inputTooLong (by rw [pfDesOp_eq, if_pos hlong])
  case tooShort => exact exec_pfDes_of_status b .frameTruncated (by rw [pfDesOp_eq, if_neg (by omega), if_pos hmin])
  case badLength =>
    exact exec_pfDes_of_status b .frameMalformed
      (by rw [pfDesOp_eq, if_neg (by omega), if_neg (by omega), if_pos hlen])
  case cut =>
    exact exec_pfDes_of_status b .frameTruncated
      (by rw [pfDesOp_eq, if_neg (by omega), if_neg (by omega), if_neg (by omega), if_pos hcut])
  case mismatch =>
    rw [← u16Of_eq_append, Nat.add_right_comm 7 1] at hcrc
    exact exec_pfDes_of_status b .frameIntegrityMismatch
      (by rw [pfDesOp_eq, if_neg (by omega), if_neg (by omega), if_neg (by omega), if_neg (by omega), if_pos hcrc])
  case reserved =>
    rw [← u16Of_eq_append, Nat.add_right_comm 7 1] at hcrc
    exact exec_pfDes_of_status b .frameMalformed
      (by rw [pfDesOp_eq, if_neg (by omega), if_neg (by omega), if_neg (by omega), if_neg (by omega),
        if_neg (not_not.mpr hcrc), if_pos hreserved])
  case accepted =>
    exact exec_pfDes_of_ok b (spelledPacket b)
      ((pfDesOp_eq_ok_iff_passesChecks b _).mpr ⟨⟨hlimit, hlen, hwhole, hcrc, hreserved⟩, rfl⟩)

end Sys2Proof.Framer
end

section
/-!
PROOFS. The layers of the pipeline (43_pipeline.md) taken one by one: which statuses each can end in, and what the channel
symbols between them are. The wire image of a packet is the Manchester image of its code stream.
-/

namespace Sys2Proof.Pipeline

open Sys2Proof Sys2Proof.Machine Sys2Proof.Safety Sys2Proof.Manchester Sys2Proof.ReedSolomon Sys2Proof.Framer

/-! ### The statuses a layer can fail with -/

/-- An operation body answers, or ends in one of the statuses `cs` and never in a fault (60_exceptions.md R200, R204). -/
def FailsOnlyWith {α : Type} (op : Except Stop α) (cs : List Status) : Prop :=
  ∀ e, op = .error e → ∃ c ∈ cs, e = .status c

theorem failsOnlyWith_ok {α : Type} (a : α) (cs : List Status) : FailsOnlyWith (.ok a) cs := nofun

theorem failsOnlyWith_status {α : Type} {c : Status} {cs : List Status} (h : c ∈ cs) :
    FailsOnlyWith (α := α) (.error (.status c)) cs := fun _ he => ⟨c, h, (Except.error.inj he).symm⟩

/-- With capacity for every input MAN_DEC never lacks room (43_pipeline.md R191). -/
theorem manDecOp_failsOnlyWith (ss : SymSeq) (cap : U16) (hcap : 128 ≤ cap.toNat) :
    FailsOnlyWith (manDecOp ss cap) [.inputTooLong, .manInvalidLength, .manInvalidTransition] := by
  rw [manDecOp_eq]
  split_ifs with hlimit hwhole hroom
  · exact failsOnlyWith_status (by decide)
  · exact failsOnlyWith_status (by decide)
  · omega
  · rcases manDecodeBytes_cases (ss.length / 16) ss (by omega) with ⟨bs, hbs, -⟩ | hbad
    · exact hbs ▸ failsOnlyWith_ok bs _
    · exact hbad ▸ failsOnlyWith_status (by decide)

theorem fecDecodeBlocks_failsOnlyWith (m : Nat) (b : ByteSeq) (hb : b.length = 32 * m) :
    FailsOnlyWith (fecDecodeBlocks m b) [.fecUncorrectable] := by
  induction m generalizing b with
  | zero => exact failsOnlyWith_ok _ _
  | succ m ih =>
    rw [fecDecodeBlocks_succ m b (by omega)]
    rcases near_or_far (word b 0) with ⟨c, hc, hd⟩ | hfar
    · rw [rsDecode_of_near _ c (length_word b 0 (m + 1) hb (by omega)) hc hd, ok_bind]
      have hrest := ih (b.drop 32) (by simp [hb]; omega)
      cases hop : fecDecodeBlocks m (b.drop 32) with
      | ok y => exact failsOnlyWith_ok _ _
      | error e =>
        obtain ⟨c, hc, rfl⟩ := hrest e hop
        exact failsOnlyWith_status hc
    · rw [rsDecode_of_far _ hfar]
      exact failsOnlyWith_status (by decide)

theorem fecDecOp_failsOnlyWith (b : ByteSeq) :
    FailsOnlyWith (fecDecOp b) [.inputTooLong, .fecInvalidLength, .fecUncorrectable] := by
  rw [fecDecOp_eq]
  split_ifs with hlimit hwhole
  · exact failsOnlyWith_status (by decide)
  · exact failsOnlyWith_status (by decide)
  · intro e he
    obtain ⟨c, hc, rfl⟩ := fecDecodeBlocks_failsOnlyWith (b.length / 32) b (by omega) e he
    exact ⟨c, List.mem_cons_of_mem _ (List.mem_cons_of_mem _ hc), rfl⟩

theorem pfDesOp_failsOnlyWith (b : ByteSeq) :
    FailsOnlyWith (pfDesOp b) [.inputTooLong, .frameTruncated, .frameMalformed, .frameIntegrityMismatch] := by
  rw [pfDesOp_eq]
  split_ifs
  case neg => exact failsOnlyWith_ok _ _
  all_goals exact failsOnlyWith_status (by decide)

/-- What the response of an operation tells of its body: OK, and the body answered; or its failure status. -/
structure Answers {α : Type} (op : Except Stop α) (build : α → Response) (x : Response) : Prop where
  completes : ∀ s, finish (op.map build) s = .next (s.complete x)
  answered : x.status = 0x00#8 → ∃ a, op = .ok a ∧ x = build a
  failed : x.status ≠ 0x00#8 → ∃ c, op = .error (.status c) ∧ x = failure c.code

/-- No two statuses share a code (60_exceptions.md R200). -/
theorem code_injective : Function.Injective Status.code := fun c d => by
  cases c <;> cases d <;> decide

/-- An operation that never ends in a fault completes with one response. -/
theorem exists_answers {α : Type} {op : Except Stop α} {cs : List Status} (hop : FailsOnlyWith op cs)
    (hcs : Status.ok ∉ cs) (build : α → Response) (hbuild : ∀ a, (build a).status = 0x00#8) :
    ∃ x, Answers op build x := by
  cases h : op with
  | ok a => exact ⟨build a, fun _ => rfl, fun _ => ⟨a, rfl, rfl⟩, fun hx => absurd (hbuild a) hx⟩
  | error e =>
    obtain ⟨c, hc, rfl⟩ := hop e h
    refine ⟨failure c.code, fun _ => rfl, fun hx => ?_, fun _ => ⟨c, rfl, rfl⟩⟩
    exact absurd (code_injective (a₂ := .ok) hx ▸ hc) hcs

/-! ### RX.FRAME, layer by layer -/

theorem exec_rxFrame_of_manDec_status {ss : SymSeq} {c : Status} (hm : manDecOp ss 128#16 = .error (.status c))
    (s : State) : exec (.rxFrame ss) s = .next (s.complete (failure c.code)) := by
  rw [exec_rxFrame, rxFrameOp_eq, hm]; rfl

theorem exec_rxFrame_of_fecDec_status {ss : SymSeq} {bs : ByteSeq} {c : Status} (hm : manDecOp ss 128#16 = .ok bs)
    (hf : fecDecOp bs = .error (.status c)) (s : State) :
    exec (.rxFrame ss) s = .next (s.complete (failure c.code)) := by
  simp only [exec_rxFrame, rxFrameOp_eq, hm, hf]; rfl

theorem exec_rxFrame_of_pfDes_status {ss : SymSeq} {bs : ByteSeq} {d : ByteSeq × Nat} {c : Status}
    (hm : manDecOp ss 128#16 = .ok bs) (hf : fecDecOp bs = .ok d) (hp : pfDesOp d.1 = .error (.status c)) (s : State) :
    exec (.rxFrame ss) s = .next (s.complete (failure c.code)) := by
  simp only [exec_rxFrame, rxFrameOp_eq, hm, hf, hp]; rfl

theorem exec_rxFrame_of_ok {ss : SymSeq} {bs : ByteSeq} {d : ByteSeq × Nat} {p : Packet}
    (hm : manDecOp ss 128#16 = .ok bs) (hf : fecDecOp bs = .ok d) (hp : pfDesOp d.1 = .ok p) (s : State) :
    exec (.rxFrame ss) s = .next (s.complete (Response.okPacket p d.2)) := by
  simp only [exec_rxFrame, rxFrameOp_eq, hm, hf, hp]; rfl

/-! ### The code stream of a packet -/

theorem split_eq (b : ByteSeq) : split b = (List.range ((b.length + 23) / 24)).map (block b) := splitBlocks_eq _ b

theorem length_split (b : ByteSeq) : (split b).length = (b.length + 23) / 24 := by
  rw [split_eq, List.length_map, List.length_range]

theorem length_of_mem_split (b d : ByteSeq) (hd : d ∈ split b) : d.length = 24 := by
  rw [split_eq] at hd
  obtain ⟨j, -, rfl⟩ := List.mem_map.mp hd
  exact length_block b j

/-- The blocks hold the bytes they were split from, before the padding (41_reed_solomon.md R132). -/
theorem isPrefix_flatten_splitBlocks (m : Nat) (b : ByteSeq) (hb : b.length ≤ 24 * m) :
    b <+: (splitBlocks m b).flatten := by
  induction m generalizing b with
  | zero => simp [List.length_eq_zero_iff.mp (Nat.le_zero.mp hb)]
  | succ m ih =>
    rw [splitBlocks, show Config.rsK = 24 from rfl, List.flatten_cons]
    rcases Nat.le_total b.length 24 with hshort | hlong
    · rw [List.take_of_length_le hshort, List.append_assoc]
      exact List.prefix_append _ _
    · have hpad : rep 0#8 (24 - (b.take 24).length) = [] := by simp [rep, hlong]
      rw [hpad, List.append_nil]
      conv_lhs => rw [← List.take_append_drop 24 b]
      exact (List.prefix_append_right_inj _).mpr (ih (b.drop 24) (by simp; omega))

theorem isPrefix_flatten_split (b : ByteSeq) : b <+: (split b).flatten :=
  isPrefix_flatten_splitBlocks _ b (by show _ ≤ 24 * ((b.length + 23) / 24); omega)

/-- The code words of the blocks of a packet's frame, in order (43_pipeline.md R192). -/
def codeStream (p : Packet) : ByteSeq := (split (frameOf p)).flatMap rsEncode

theorem length_split_frameOf (p : Packet) : (split (frameOf p)).length = (9 + p.payload.length + 23) / 24 := by
  rw [length_split, length_frameOf]

theorem codeStream_eq (p : Packet) :
    codeStream p = (List.range ((9 + p.payload.length + 23) / 24)).flatMap fun j => rsEncode (block (frameOf p) j) := by
  rw [codeStream, split_eq, length_frameOf, List.flatMap_map]

/-- The code stream starts with the high byte of `sender_id`, the code being systematic (43_pipeline.md R192). -/
theorem head_codeStream (p : Packet) : (codeStream p)[0]? = some (u16Hi p.senderId) := by
  obtain ⟨m, hm⟩ : ∃ m, (9 + p.payload.length + 23) / 24 = m + 1 := Nat.exists_eq_add_of_le' (by omega)
  rw [codeStream_eq, hm, List.range_succ_eq_map, List.flatMap_cons, rsEncode]
  simp [block, frameOf, frameBody]

theorem length_rsEncode_of_mem_split (b d : ByteSeq) (hd : d ∈ split b) : (rsEncode d).length = 32 :=
  length_rsEncode d (length_of_mem_split b d hd)

theorem length_codeStream (p : Packet) : (codeStream p).length = 32 * (split (frameOf p)).length :=
  length_flatMap_words rsEncode _ (length_rsEncode_of_mem_split _)

/-- Word `j` of the code stream is the code word of block `j` (41_reed_solomon.md R133). -/
theorem word_codeStream (p : Packet) (j : Nat) (hj : j < (split (frameOf p)).length) :
    word (codeStream p) j = ((split (frameOf p)).map rsEncode).getD j [] := by
  rw [codeStream, word_flatMap rsEncode _ (length_rsEncode_of_mem_split _) j hj,
    List.getD_eq_getElem _ _ (by rwa [List.length_map]), List.getElem_map]

theorem isCodeword_word_codeStream (p : Packet) (j : Nat) (hj : j < (split (frameOf p)).length) :
    isCodeword (word (codeStream p) j) = true := by
  rw [codeStream, word_flatMap rsEncode _ (length_rsEncode_of_mem_split _) j hj]
  exact isCodeword_rsEncode _ (length_of_mem_split _ _ (List.getElem_mem hj))

theorem fecEncOp_frameOf (p : Packet) (hp : p.payload.length ≤ 64) : fecEncOp (frameOf p) = .ok (codeStream p) := by
  rw [fecEncOp_eq, if_neg (by rw [length_frameOf]; omega)]; rfl

theorem exec_fecEnc_frameOf (p : Packet) (hp : p.payload.length ≤ 64) (s : State) :
    exec (.fecEnc (frameOf p)) s = .next (s.complete (Response.okBytes (codeStream p))) := by
  rw [exec_fecEnc, fecEncOp_frameOf p hp]; rfl

/-- At most four code words are sent (43_pipeline.md R192). -/
theorem length_codeStream_le (p : Packet) (hp : p.payload.length ≤ 64) : (codeStream p).length ≤ 128 := by
  rw [length_codeStream, length_split_frameOf]; omega

/-- A code word is 512 channel symbols (43_pipeline.md R190). -/
theorem length_manEncode_codeStream (p : Packet) :
    (manEncode (codeStream p)).length = 512 * ((9 + p.payload.length + 23) / 24) := by
  rw [length_manEncode, length_codeStream, length_split_frameOf]; omega

/-- TX.FRAME of a valid packet sends the Manchester image of its code stream (43_pipeline.md R190). -/
theorem exec_txFrame_of_valid (p : Packet) (hp : p.payload.length ≤ 64) (s : State) :
    exec (.txFrame p) s = .next (s.complete (Response.okSyms (manEncode (codeStream p)))) := by
  simp only [exec_txFrame, txFrameOp_eq, pfSerOp_eq, if_neg (show ¬ 64 < p.payload.length by omega),
    fecEncOp_frameOf p hp, manEncOp_eq, if_neg (Nat.not_lt.mpr (length_codeStream_le p hp))]
  rfl

/-! ### Changed bytes of a code stream -/

theorem drop_manEncode (b : ByteSeq) (k : Nat) : (manEncode b).drop (16 * k) = manEncode (b.drop k) := by
  rcases Nat.le_total k b.length with hk | hk
  · conv_lhs => rw [← List.take_append_drop k b, manEncode_append]
    exact List.drop_left' (by simp [length_manEncode, hk])
  · rw [List.drop_eq_nil_of_le hk, List.drop_eq_nil_of_le (by rw [length_manEncode]; omega)]
    rfl

theorem manEncode_inj (a b : ByteSeq) : manEncode a = manEncode b ↔ a = b := by
  refine ⟨fun h => ?_, congrArg _⟩
  have ha := (manDecodeBytes_eq_ok_iff a.length (manEncode a) a (length_manEncode a)).mpr rfl
  have hb := (manDecodeBytes_eq_ok_iff a.length (manEncode a) b (length_manEncode a)).mpr h.symm
  exact Except.ok.inj (ha.symm.trans hb)

/-- The sixteen symbols of byte `k` are the image of that byte (40_manchester.md R102). -/
theorem slice_manEncode (b : ByteSeq) (k : Nat) : slice (manEncode b) (16 * k) 16 = manEncode ((b.drop k).take 1) := by
  rw [slice, drop_manEncode]
  cases b.drop k with
  | nil => rfl
  | cons x rest =>
    have hbyte : (manByte x).length = 16 := length_manPairs _
    rw [manEncode, List.take_left' hbyte]
    simp [manEncode]

/-- Bytes of symbols changed on the wire are bytes changed in the code stream. -/
theorem bytesChanged_manEncode (b b' : ByteSeq) (h : b.length = b'.length) (k n : Nat) :
    bytesChanged (manEncode b) (manEncode b') k n = Machine.dist (slice b' k n) (slice b k n) := by
  induction n generalizing k with
  | zero => simp [bytesChanged, slice, Machine.dist]
  | succ n ih =>
    rw [bytesChanged, ih, slice_manEncode, slice_manEncode]
    simp only [manEncode_inj, slice, ← List.tail_drop]
    have hrest : (b.drop k).length = (b'.drop k).length := by simp [h]
    generalize b.drop k = u, b'.drop k = v at hrest
    match u, v, hrest with
    | [], [], _ => simp [Machine.dist]
    | x :: u, y :: v, _ => simp [Machine.dist, cond_eq_ite, eq_comm (a := y)]

theorem bytesChanged_self (w : SymSeq) (k n : Nat) : bytesChanged w w k n = 0 := by
  induction n generalizing k with
  | zero => rfl
  | succ n ih => simp [bytesChanged, ih]

theorem bytesChanged_add (w w' : SymSeq) (k m n : Nat) :
    bytesChanged w w' k (m + n) = bytesChanged w w' k m + bytesChanged w w' (k + m) n := by
  induction m generalizing k with
  | zero => simp [bytesChanged]
  | succ m ih => rw [Nat.add_right_comm, bytesChanged, bytesChanged, ih, Nat.add_assoc, Nat.add_assoc, Nat.add_comm m 1]

/-- The changed bytes counted code word by code word. -/
theorem bytesChanged_words (w w' : SymSeq) (m : Nat) :
    bytesChanged w w' 0 (32 * m) = ((List.range m).map fun j => bytesChanged w w' (32 * j) 32).sum := by
  induction m with
  | zero => rfl
  | succ m ih => rw [Nat.mul_succ, bytesChanged_add, ih, Nat.zero_add, List.sum_range_succ]

/-! ### The code stream received -/

/-- A received stream within four bytes of every code word decodes to the packet sent (43_pipeline.md R193). -/
theorem fecDecOp_of_near (p : Packet) (b : ByteSeq) (hp : p.payload.length ≤ 64)
    (hb : b.length = 32 * (split (frameOf p)).length)
    (hnear : ∀ j, j < (split (frameOf p)).length → Machine.dist (word b j) (word (codeStream p) j) ≤ 4) :
    fecDecOp b = .ok ((split (frameOf p)).flatten,
      ((List.range (split (frameOf p)).length).map fun j =>
        Machine.dist (word b j) (word (codeStream p) j)).sum) := by
  have hcount := length_split_frameOf p
  have hdata : ((split (frameOf p)).map rsEncode).flatMap (List.take 24) = (split (frameOf p)).flatten := by
    rw [List.flatMap_map, ← List.flatMap_id']
    exact List.flatMap_congr fun d hd => take_rsEncode d (length_of_mem_split _ d hd)
  have hdec := fecDecodeBlocks_of_near ((split (frameOf p)).map rsEncode) b (by rwa [List.length_map]) fun j hj => by
    rw [List.length_map] at hj
    rw [← word_codeStream p j hj]
    exact ⟨isCodeword_word_codeStream p j hj, hnear j hj⟩
  rw [hdata, List.length_map] at hdec
  rw [fecDecOp_eq, if_neg (by omega), if_neg (by omega), show b.length / 32 = (split (frameOf p)).length by omega, hdec]
  refine congrArg (fun n => Except.ok (_, n)) (congrArg List.sum (List.map_congr_left fun j hj => ?_))
  rw [word_codeStream p j (List.mem_range.mp hj)]

theorem pfDesOp_flatten_split (p : Packet) (hp : p.payload.length ≤ 64) :
    pfDesOp (split (frameOf p)).flatten = .ok p := by
  refine (pfDesOp_eq_ok_iff _ p).mpr ⟨?_, hp, isPrefix_flatten_split _⟩
  have hlen := length_split_frameOf p
  rw [List.length_flatten, List.map_congr_left (length_of_mem_split (frameOf p)), List.map_const', List.sum_replicate]
  simp
  omega

/-- Symbols with legal pairs and at most four changed bytes a code word (43_pipeline.md R193). -/
theorem exec_rxFrame_of_near (p : Packet) (hp : p.payload.length ≤ 64) (w : SymSeq)
    (hlen : w.length = (manEncode (codeStream p)).length) (hlegal : pairsLegal w)
    (hnear : ∀ j, j < w.length / 512 → bytesChanged (manEncode (codeStream p)) w (32 * j) 32 ≤ 4) (s : State) :
    exec (.rxFrame w) s = .next (s.complete
      (Response.okPacket p (bytesChanged (manEncode (codeStream p)) w 0 (w.length / 16)))) := by
  have hcount := length_split_frameOf p
  have hstream := length_codeStream p
  obtain ⟨b, rfl⟩ := (pairsLegal_iff_exists_manEncode w (codeStream p).length (by rw [hlen, length_manEncode])).mp hlegal
  rw [length_manEncode, length_manEncode] at hlen
  have hword : ∀ j, bytesChanged (manEncode (codeStream p)) (manEncode b) (32 * j) 32
      = Machine.dist (word b j) (word (codeStream p) j) := fun j => bytesChanged_manEncode _ b (by omega) _ _
  rw [length_manEncode] at hnear ⊢
  rw [show 16 * b.length / 16 = 32 * (split (frameOf p)).length by omega, bytesChanged_words]
  simp only [hword] at hnear ⊢
  exact exec_rxFrame_of_ok (manDecOp_manEncode b 128#16 (by omega) (show _ ≤ 128 by omega))
    (fecDecOp_of_near p b hp (by omega) fun j hj => hnear j (by omega)) (pfDesOp_flatten_split p hp) s

end Sys2Proof.Pipeline
end

section
/-!
PROOFS. The statements about TX.FRAME and RX.FRAME (43_pipeline.md R190 to R193).
-/

namespace Sys2Proof.Pipeline

open Sys2Proof Sys2Proof.Machine Sys2Proof.Safety Sys2Proof.Manchester Sys2Proof.ReedSolomon Sys2Proof.Framer

/-- Settles O46: legal symbols are the image of a stream within four bytes of each code word of the packet, which decodes
by `exec_rxFrame_of_near`; an illegal pair ends the operation in MAN.DEC. -/
theorem rxFrameReceivesWhatTxFrameSends : Obligations.RxFrameReceivesWhatTxFrameSends := by
  intro p hp
  refine ⟨Response.okSyms (manEncode (codeStream p)), exec_txFrame_of_valid p hp, rfl, fun s => ?unchanged,
    fun w hw hlegal hnear s => exec_rxFrame_of_near p hp w hw hlegal hnear s, fun w hw hillegal s => ?illegal⟩
  case unchanged =>
    have hlegal := (pairsLegal_iff_exists_manEncode _ _ (length_manEncode (codeStream p))).mpr ⟨_, rfl⟩
    have hback := exec_rxFrame_of_near p hp _ rfl hlegal (by simp [bytesChanged_self]) s
    rwa [bytesChanged_self] at hback
  case illegal =>
    have hlen : w.length = 512 * ((9 + p.payload.length + 23) / 24) := hw.trans (length_manEncode_codeStream p)
    exact exec_rxFrame_of_manDec_status
      (manDecOp_of_not_pairsLegal w 128#16 (by omega) (by omega) (show _ ≤ 128 by omega) hillegal) s

/-- Settles O44: the three layers answer the frame, its code stream and the image of that. -/
theorem txFrameIsSerialiseThenFecThenManchester : Obligations.TxFrameIsSerialiseThenFecThenManchester := by
  intro p
  refine ⟨fun hlong s => ?tooLarge, fun hp => ?sent⟩
  case tooLarge => rw [exec_txFrame, txFrameOp_eq, pfSerOp_eq, if_pos hlong]; rfl
  case sent =>
    exact ⟨Response.okBytes (frameOf p), Response.okBytes (codeStream p), Response.okSyms (manEncode (codeStream p)),
      exec_pfSer_of_valid p hp, exec_fecEnc_frameOf p hp, exec_manEnc_of_le (codeStream p) (length_codeStream_le p hp),
      rfl, rfl, rfl, length_manEncode_codeStream p, exec_txFrame_of_valid p hp⟩

/-- Settles O45: each layer's response tells by its status whether the layer's body answered, and what it passed on. -/
theorem rxFrameIsManchesterThenFecThenDeserialise : Obligations.RxFrameIsManchesterThenFecThenDeserialise := by
  intro ss
  refine ⟨fun hlong => exec_rxFrame_of_manDec_status (c := .inputTooLong) (by rw [manDecOp_eq, if_pos hlong]),
    fun _ => ?layers⟩
  have hman := manDecOp_failsOnlyWith ss 128#16 (by decide)
  obtain ⟨a, ha⟩ := exists_answers hman (by decide) Response.okBytes fun _ => rfl
  obtain ⟨b, hb⟩ := exists_answers (fecDecOp_failsOnlyWith a.outBytes) (by decide) decodedResponse fun _ => rfl
  obtain ⟨c, hc⟩ := exists_answers (pfDesOp_failsOnlyWith b.outBytes) (by decide) packetResponse fun _ => rfl
  refine ⟨a, b, c, ha.completes, hb.completes, hc.completes, fun hroom => ?room, fun hfail => ?manchester,
    fun hok hfail => ?fec, fun hok hok' hfail => ?framer, fun hok hok' hok'' => ?received⟩
  case room =>
    obtain ⟨e, he, rfl⟩ := ha.failed (by rw [hroom]; decide)
    obtain ⟨d, hd, hde⟩ := hman _ he
    obtain rfl := Stop.status.inj hde
    exact absurd (code_injective (a₂ := .manBufferTooSmall) hroom ▸ hd) (by decide)
  case manchester =>
    obtain ⟨e, he, rfl⟩ := ha.failed hfail
    exact exec_rxFrame_of_manDec_status he
  case fec =>
    obtain ⟨bs, hbs, rfl⟩ := ha.answered hok
    obtain ⟨e, he, rfl⟩ := hb.failed hfail
    exact exec_rxFrame_of_fecDec_status hbs he
  case framer =>
    obtain ⟨bs, hbs, rfl⟩ := ha.answered hok
    obtain ⟨d, hd, rfl⟩ := hb.answered hok'
    obtain ⟨e, he, rfl⟩ := hc.failed hfail
    exact exec_rxFrame_of_pfDes_status hbs hd he
  case received =>
    obtain ⟨bs, hbs, rfl⟩ := ha.answered hok
    obtain ⟨d, hd, rfl⟩ := hb.answered hok'
    obtain ⟨p, hp, rfl⟩ := hc.answered hok''
    exact exec_rxFrame_of_ok hbs hd hp

/-- Settles O47: the image is that of the code stream, whose words are the encodings of the frame's blocks. -/
theorem wireImageIsTheManchesterImageOfTheCodeWords : Obligations.WireImageIsTheManchesterImageOfTheCodeWords := by
  rintro p n hp rfl
  have himage := isManchesterImage_manEncode (codeStream p)
  obtain ⟨hfirst, hsecond⟩ := himage.2 0 0 _ (head_codeStream p) (by omega)
  have hbit : (u16Hi p.senderId).getLsbD 7 = p.senderId.getLsbD 15 := by simp [u16Hi]
  refine ⟨Response.okSyms (manEncode (codeStream p)), Response.okBytes (frameOf p), exec_txFrame_of_valid p hp,
    exec_pfSer_of_valid p hp, codeStream_eq p ▸ himage, by omega, by omega, hfirst.trans (congrArg some hbit),
    hsecond.trans (congrArg (fun bit => some (!bit)) hbit)⟩

end Sys2Proof.Pipeline
end

section
/-!
PROOFS. Encoding (30_encoding.md R60 to R64): a request decodes to an operation exactly when it has the operation's op
byte and its operands in the fields the operation's format reads; the round trip and the ignored fields are read off
that.
-/

namespace Sys2Proof.Encoding

open Sys2Proof Sys2Proof.Machine Sys2Proof.Safety

/-- The request holds the operation's operands in the fields the operation's format reads (30_encoding.md R61). -/
def HoldsOperands : Instr → Request → Prop
  | .manEnc bs, r => bs = r.inBytes
  | .manDec ss cap, r => ss = r.inSyms ∧ cap = r.outCap
  | .rsEnc bs, r => bs = r.inBytes
  | .rsDec bs, r => bs = r.inBytes
  | .fecEnc bs, r => bs = r.inBytes
  | .fecDec bs, r => bs = r.inBytes
  | .pfSer p, r => p = r.inPkt
  | .pfDes bs, r => bs = r.inBytes
  | .txFrame p, r => p = r.inPkt
  | .rxFrame ss, r => ss = r.inSyms

theorem holdsOperands_of_decode (r : Request) (i : Instr) (h : decode r = .ok i) :
    opcode i = r.op ∧ HoldsOperands i r := by
  unfold decode at h
  split at h
  case h_11 => cases h
  all_goals
    next hop =>
    cases h
    simp [hop, opcode, HoldsOperands]

theorem decode_of_holdsOperands (r : Request) (i : Instr) (hop : opcode i = r.op) (h : HoldsOperands i r) :
    decode r = .ok i := by
  unfold decode
  rw [← hop]
  cases i
  case manDec =>
    obtain ⟨rfl, rfl⟩ := h
    rfl
  all_goals
    cases h
    rfl

/-- What decoding reads: the op byte and the operands (30_encoding.md R60, R61, R63). -/
theorem decode_eq_ok_iff (r : Request) (i : Instr) : decode r = .ok i ↔ opcode i = r.op ∧ HoldsOperands i r :=
  ⟨holdsOperands_of_decode r i, fun ⟨hop, h⟩ => decode_of_holdsOperands r i hop h⟩

theorem opcode_mem_legalOps (i : Instr) : opcode i ∈ legalOps := by
  cases i <;> simp [opcode, legalOps]

/-- A request whose op names no operation decodes to none (30_encoding.md R64). -/
theorem decode_of_notMem_legalOps (r : Request) (h : r.op ∉ legalOps) : decode r = .error (.illegalOp r.op) := by
  unfold decode
  split
  case h_11 => rfl
  all_goals
    next hop => exact absurd (by rw [hop]; decide) h

/-- Every op of the table names an operation (30_encoding.md R60, R63). -/
theorem exists_decode_of_mem_legalOps (r : Request) (h : r.op ∈ legalOps) : ∃ i, decode r = .ok i := by
  unfold decode
  split
  case h_11 => simp_all [legalOps]
  all_goals exact ⟨_, rfl⟩

theorem exists_decode_iff (r : Request) : (∃ i, decode r = .ok i) ↔ r.op ∈ legalOps := by
  refine ⟨fun ⟨i, hi⟩ => ?_, exists_decode_of_mem_legalOps r⟩
  rw [← ((decode_eq_ok_iff r i).mp hi).1]
  exact opcode_mem_legalOps i

/-- Agreement on the fields read says that the request has the operation's op and operands (30_encoding.md R61). -/
theorem agreeOnFieldsRead_encode_iff (i : Instr) (r : Request) :
    agreeOnFieldsRead (encode i) r ↔ opcode i = r.op ∧ HoldsOperands i r := by
  cases i <;>
    simp [agreeOnFieldsRead, encode, Request.ofOp, opcode, HoldsOperands]

theorem agreeOnFieldsRead_trans {r r' r'' : Request} (h : agreeOnFieldsRead r r') (h' : agreeOnFieldsRead r' r'') :
    agreeOnFieldsRead r r'' := by
  obtain ⟨hop, hbytes, hsyms, hcap, hpkt⟩ := h
  obtain ⟨hop', hbytes', hsyms', hcap', hpkt'⟩ := h'
  rw [← hop] at hop' hbytes' hsyms' hcap' hpkt'
  exact ⟨hop', fun hm => (hbytes hm).trans (hbytes' hm), fun hm => (hsyms hm).trans (hsyms' hm),
    fun hm => (hcap hm).trans (hcap' hm), fun hm => (hpkt hm).trans (hpkt' hm)⟩

theorem decode_eq_ok_iff_agreeOnFieldsRead (r : Request) (i : Instr) :
    decode r = .ok i ↔ agreeOnFieldsRead (encode i) r :=
  (decode_eq_ok_iff r i).trans (agreeOnFieldsRead_encode_iff i r).symm

/-- The round trip (30_encoding.md R60, R61). -/
theorem decode_encode (i : Instr) : decode (encode i) = .ok i := by
  refine (decode_eq_ok_iff _ i).mpr ?_
  cases i <;> simp [encode, Request.ofOp, opcode, HoldsOperands]

/-- Settles O18: all three parts read decoding by `decode_eq_ok_iff`. -/
theorem decodeAndEncodeAgree : Obligations.DecodeAndEncodeAgree :=
  ⟨decode_encode, decode_eq_ok_iff_agreeOnFieldsRead, exists_decode_iff⟩

/-- Settles O19: the operands lie in the fields that the format reads. -/
theorem decodeIgnoresFieldsOutsideTheFormat : Obligations.DecodeIgnoresFieldsOutsideTheFormat := by
  intro r r' i hdec hop
  obtain ⟨hcode, hold⟩ := (decode_eq_ok_iff r i).mp hdec
  simp only [decode_eq_ok_iff, hop, ← hcode, true_and]
  cases i <;> simp_all [Instr.format, HoldsOperands, opcode]

/-- Settles O17: the words of 30_encoding.md R60, read bit by bit. -/
theorem sampleOpcodeWordsDecode : Obligations.SampleOpcodeWordsDecode :=
  ⟨rfl, rfl, rfl, rfl, rfl, rfl, rfl, rfl⟩

end Sys2Proof.Encoding
end

section
/-!
PROOFS. A one-bit change of a frame (42_framer.md R171): a frame, with the initial value of the CRC before it, is a
multiple of the CRC's polynomial, which has the root 1; a change of one bit changes the value at 1.
-/

namespace Sys2Proof.Crc

open Sys2Proof Sys2Proof.Machine Sys2Proof.Safety Sys2Proof.Galois Sys2Proof.Framer Polynomial

/-! ### The parity of a message -/

/-- The number of set bits of a message, modulo 2: the value of its polynomial at 1. -/
noncomputable def bitParity (bs : ByteSeq) : ZMod 2 := (messagePoly bs).eval 1

@[simp] theorem bitParity_nil : bitParity [] = 0 := by simp [bitParity, messagePoly]

@[simp] theorem bitParity_cons (b : Byte) (bs : ByteSeq) : bitParity (b :: bs) = (toPoly b).eval 1 + bitParity bs := by
  simp [bitParity, messagePoly]

theorem bitParity_append (u v : ByteSeq) : bitParity (u ++ v) = bitParity u + bitParity v := by
  induction u with
  | nil => simp
  | cons b u ih => rw [List.cons_append, bitParity_cons, bitParity_cons, ih, add_assoc]

/-- The value at 1 counts the set bits. -/
theorem eval_one_toPoly {n : Nat} (b : BitVec n) :
    (toPoly b).eval 1 = ∑ i ∈ Finset.range n, if b.getLsbD i then 1 else 0 := by
  rw [toPoly, eval_finsetSum]
  refine Finset.sum_congr rfl fun i _ => ?_
  split <;> simp

/-- A byte with one bit is odd. -/
theorem eval_one_toPoly_bit (i : Nat) (hi : i < 8) : (toPoly (1#8 <<< i)).eval 1 = 1 := by
  interval_cases i <;> simp [toPoly, Finset.sum_range_succ]

theorem bitParity_set (bs : ByteSeq) (j : Nat) (hj : j < bs.length) (e : Byte) :
    bitParity (bs.set j (bs.getD j 0#8 ^^^ e)) = bitParity bs + (toPoly e).eval 1 := by
  induction bs generalizing j with
  | nil => simp at hj
  | cons b bs ih =>
    cases j with
    | zero =>
      simp [toPoly_xor]
      ring
    | succ j =>
      have := ih j (by simpa using hj)
      simp only [List.set_cons_succ, List.getD_cons_succ, bitParity_cons, this]
      ring

/-- Inverting a bit changes the parity. -/
theorem bitParity_flipBit (bs : ByteSeq) (k : Nat) (hk : k < 8 * bs.length) :
    bitParity (flipBit bs k) = bitParity bs + 1 := by
  rw [flipBit, bitParity_set bs (k / 8) (by omega), eval_one_toPoly_bit _ (by omega)]

/-! ### The parity of the CRC -/

/-- The CRC's polynomial has the root 1, having four terms (42_framer.md R164). -/
theorem eval_one_crcPoly : (toPoly (0x11021#17)).eval 1 = 0 := by
  simp [toPoly, Finset.sum_range_succ]
  decide

/-- The CRC keeps the parity: its initial value is even, and its polynomial is. -/
theorem eval_one_crc16 (bs : ByteSeq) : (toPoly (crc16 bs)).eval 1 = bitParity bs := by
  obtain ⟨q, hq⟩ := dvd_toPoly_crc16_sub bs
  have hinit : (toPoly (0xFFFF#16)).eval 1 = 0 := by
    simp [toPoly, Finset.sum_range_succ]
    decide
  have h := congrArg (eval 1) hq
  simp only [eval_sub, eval_add, eval_mul, eval_pow, eval_X, one_pow, mul_one, eval_one_crcPoly, hinit, zero_mul,
    zero_add, sub_eq_zero] at h
  exact h

theorem eval_one_toPoly_append {m n : Nat} (hi : BitVec m) (lo : BitVec n) :
    (toPoly (hi ++ lo)).eval 1 = (toPoly hi).eval 1 + (toPoly lo).eval 1 := by
  simp only [eval_one_toPoly]
  rw [show Finset.range (m + n) = Finset.range (n + m) by rw [Nat.add_comm], Finset.sum_range_add, add_comm]
  congr 1
  · simp [BitVec.getLsbD_append]
  · refine Finset.sum_congr rfl fun i hi => ?_
    simp [BitVec.getLsbD_append, Finset.mem_range.mp hi]

/-- Bytes that end in the CRC of those before it are of even parity. -/
theorem bitParity_eq_zero_of_integrity (body : ByteSeq) (hi lo : Byte) (h : crc16 body = hi ++ lo) :
    bitParity (body ++ [hi, lo]) = 0 := by
  have hcrc := eval_one_crc16 body
  rw [h, eval_one_toPoly_append] at hcrc
  rw [bitParity_append, bitParity_cons, bitParity_cons, bitParity_nil, add_zero, hcrc, CharTwo.add_self_eq_zero]

end Sys2Proof.Crc

namespace Sys2Proof.Framer

open Sys2Proof Sys2Proof.Machine Sys2Proof.Safety Sys2Proof.Crc

@[simp] theorem length_flipBit (b : ByteSeq) (k : Nat) : (flipBit b k).length = b.length := by simp [flipBit]

theorem getD_flipBit_of_ne (b : ByteSeq) (k j : Nat) (h : k / 8 ≠ j) : (flipBit b k).getD j 0#8 = b.getD j 0#8 := by
  simp [flipBit, h]

/-- A whole frame that passes the integrity check is of even parity. -/
theorem bitParity_eq_zero_of_passes (b : ByteSeq) (len : Nat) (hlen : b.length = 9 + len)
    (h : crc16 (b.take (7 + len)) = b.getD (7 + len) 0x00#8 ++ b.getD (8 + len) 0x00#8) : bitParity b = 0 := by
  have hparity := bitParity_eq_zero_of_integrity _ _ _ h
  rwa [Nat.add_right_comm 7 1, ← take_add_two b (7 + len) (by omega), List.take_of_length_le (by omega)] at hparity

theorem bitParity_frameOf (p : Packet) (hp : p.payload.length ≤ 64) : bitParity (frameOf p) = 0 := by
  have hpass := passesChecks_frameOf_append p [] hp (by simp; omega)
  rw [List.append_nil] at hpass
  exact bitParity_eq_zero_of_passes _ _ (length_frameOf p) hpass.integrity

/-- Settles O43: the changed frame has the length it had, so only the integrity check can refuse it; and its parity is
odd, so it does. -/
theorem oneBitChangeOffTheLengthByteIsAnIntegrityMismatch :
    Obligations.OneBitChangeOffTheLengthByteIsAnIntegrityMismatch := by
  intro p k hp hk hbyte
  refine ⟨Response.okBytes (frameOf p), exec_pfSer_of_valid p hp, length_frameOf p, ?_⟩
  have hlenByte : p.payload.length = ((flipBit (frameOf p) k).getD 6 0x00#8).toNat := by
    have := lengthByte_frameOf_append p [] hp
    rw [getD_flipBit_of_ne _ k 6 hbyte]
    simpa using this.symm
  have hlen : (flipBit (frameOf p) k).length = 9 + p.payload.length := by simp
  obtain ⟨-, -, -, -, hmismatch, -⟩ := pfDesChecksInOrderThenBuildsThePacket (flipBit (frameOf p) k) _ hlenByte
  refine hmismatch (by omega) hp (by omega) fun hcrc => ?_
  have hodd := bitParity_flipBit (frameOf p) k (by rwa [length_frameOf])
  rw [bitParity_frameOf p hp, bitParity_eq_zero_of_passes _ _ hlen hcrc] at hodd
  exact absurd hodd (by decide)

end Sys2Proof.Framer
end

section
/-!
PROOFS. What every operation answers (60_exceptions.md R200 to R204): no body ends in a fault, each fails only with the
statuses the table gives its operation, and what it answers fits the response record.
-/

namespace Sys2Proof.Responses

open Sys2Proof Sys2Proof.Machine Sys2Proof.Safety Sys2Proof.Manchester Sys2Proof.ReedSolomon Sys2Proof.Framer
  Sys2Proof.Pipeline

/-! ### The statuses each operation can fail with -/

/-- The failure statuses of an operation: the "raised by" column of 60_exceptions.md R200. -/
def failuresOf : Instr → List Status
  | .manEnc _   => [.inputTooLong]
  | .manDec _ _ => [.inputTooLong, .manInvalidLength, .manBufferTooSmall, .manInvalidTransition]
  | .rsEnc _    => [.inputTooLong, .fecInvalidLength]
  | .rsDec _    => [.inputTooLong, .fecInvalidLength, .fecUncorrectable]
  | .fecEnc _   => [.inputTooLong]
  | .fecDec _   => [.inputTooLong, .fecInvalidLength, .fecUncorrectable]
  | .pfSer _    => [.framePayloadTooLarge]
  | .pfDes _    => [.inputTooLong, .frameTruncated, .frameMalformed, .frameIntegrityMismatch]
  | .txFrame _  => [.framePayloadTooLarge]
  | .rxFrame _  => [.inputTooLong, .manInvalidLength, .manInvalidTransition, .fecInvalidLength, .fecUncorrectable,
                    .frameTruncated, .frameMalformed, .frameIntegrityMismatch]

theorem codesOf_eq (i : Instr) : codesOf i = 0x00#8 :: (failuresOf i).map Status.code := by
  cases i <;> rfl

theorem failsOnlyWith_mono {α : Type} {op : Except Stop α} {cs ds : List Status} (h : FailsOnlyWith op cs)
    (hsub : cs ⊆ ds) : FailsOnlyWith op ds := fun e he =>
  let ⟨c, hc, hec⟩ := h e he
  ⟨c, hsub hc, hec⟩

theorem failsOnlyWith_error {α β : Type} {op : Except Stop α} {cs : List Status} {e : Stop} (h : FailsOnlyWith op cs)
    (he : op = .error e) : FailsOnlyWith (.error e : Except Stop β) cs := fun _ he' =>
  h _ (he.trans (congrArg Except.error (Except.error.inj he')))

theorem manEncOp_failsOnlyWith (bs : ByteSeq) : FailsOnlyWith (manEncOp bs) [.inputTooLong] := by
  rw [manEncOp_eq]
  split_ifs
  · exact failsOnlyWith_status (by decide)
  · exact failsOnlyWith_ok _ _

/-- With any capacity: the room may lack as well (40_manchester.md R106). -/
theorem manDecOp_failsOnlyWith_room (ss : SymSeq) (cap : U16) :
    FailsOnlyWith (manDecOp ss cap)
      [.inputTooLong, .manInvalidLength, .manBufferTooSmall, .manInvalidTransition] := by
  rw [manDecOp_eq]
  split_ifs
  · exact failsOnlyWith_status (by decide)
  · exact failsOnlyWith_status (by decide)
  · exact failsOnlyWith_status (by decide)
  · rcases manDecodeBytes_cases (ss.length / 16) ss (by omega) with ⟨bs, hbs, -⟩ | hbad
    · exact hbs ▸ failsOnlyWith_ok bs _
    · exact hbad ▸ failsOnlyWith_status (by decide)

theorem rsEncOp_failsOnlyWith (d : ByteSeq) : FailsOnlyWith (rsEncOp d) [.inputTooLong, .fecInvalidLength] := by
  rw [rsEncOp_eq]
  split_ifs
  · exact failsOnlyWith_status (by decide)
  · exact failsOnlyWith_status (by decide)
  · exact failsOnlyWith_ok _ _

theorem rsDecOp_failsOnlyWith (r : ByteSeq) :
    FailsOnlyWith (rsDecOp r) [.inputTooLong, .fecInvalidLength, .fecUncorrectable] := by
  rw [rsDecOp_eq]
  split_ifs with hlimit hlen
  · exact failsOnlyWith_status (by decide)
  · exact failsOnlyWith_status (by decide)
  · rcases near_or_far r with ⟨c, hc, hd⟩ | hfar
    · rw [rsDecode_of_near r c (not_not.mp hlen) hc hd]
      exact failsOnlyWith_ok _ _
    · rw [rsDecode_of_far r hfar]
      exact failsOnlyWith_status (by decide)

theorem fecEncOp_failsOnlyWith (b : ByteSeq) : FailsOnlyWith (fecEncOp b) [.inputTooLong] := by
  rw [fecEncOp_eq]
  split_ifs
  · exact failsOnlyWith_status (by decide)
  · exact failsOnlyWith_ok _ _

theorem pfSerOp_failsOnlyWith (p : Packet) : FailsOnlyWith (pfSerOp p) [.framePayloadTooLarge] := by
  rw [pfSerOp_eq]
  split_ifs
  · exact failsOnlyWith_status (by decide)
  · exact failsOnlyWith_ok _ _

/-- The layers after PF.SER never fail: a valid packet's frame and code stream are within their limits
(43_pipeline.md R190). -/
theorem txFrameOp_of_valid (p : Packet) (hp : p.payload.length ≤ 64) :
    txFrameOp p = .ok (manEncode (codeStream p)) := by
  simp only [txFrameOp_eq, pfSerOp_eq, if_neg (show ¬ 64 < p.payload.length by omega), fecEncOp_frameOf p hp,
    manEncOp_eq, if_neg (Nat.not_lt.mpr (length_codeStream_le p hp))]

theorem txFrameOp_of_invalid (p : Packet) (hp : 64 < p.payload.length) :
    txFrameOp p = .error (.status .framePayloadTooLarge) := by
  rw [txFrameOp_eq, pfSerOp_eq, if_pos hp]

theorem txFrameOp_failsOnlyWith (p : Packet) : FailsOnlyWith (txFrameOp p) [.framePayloadTooLarge] := by
  rcases Nat.lt_or_ge 64 p.payload.length with hp | hp
  · rw [txFrameOp_of_invalid p hp]
    exact failsOnlyWith_status (by decide)
  · rw [txFrameOp_of_valid p hp]
    exact failsOnlyWith_ok _ _

/-- How RX.FRAME can end: with the first failing layer, or with all three answering (43_pipeline.md R191). -/
theorem rxFrameOp_cases (ss : SymSeq) :
    (∃ e, manDecOp ss 128#16 = .error e ∧ rxFrameOp ss = .error e)
      ∨ (∃ bs e, fecDecOp bs = .error e ∧ rxFrameOp ss = .error e)
      ∨ (∃ d e, pfDesOp d = .error e ∧ rxFrameOp ss = .error e)
      ∨ ∃ bs d w p, fecDecOp bs = .ok (d, w) ∧ pfDesOp d = .ok p ∧ rxFrameOp ss = .ok (p, w) := by
  rw [rxFrameOp_eq]
  cases manDecOp ss 128#16 with
  | error e => exact .inl ⟨e, rfl, rfl⟩
  | ok bs =>
    cases hf : fecDecOp bs with
    | error e => exact .inr (.inl ⟨bs, e, hf, by simp only [hf]⟩)
    | ok x =>
      cases hp : pfDesOp x.1 with
      | error e => exact .inr (.inr (.inl ⟨x.1, e, hp, by simp only [hf, hp]⟩))
      | ok p => exact .inr (.inr (.inr ⟨bs, x.1, x.2, p, hf, hp, by simp only [hf, hp]⟩))

theorem rxFrameOp_failsOnlyWith (ss : SymSeq) :
    FailsOnlyWith (rxFrameOp ss)
      [.inputTooLong, .manInvalidLength, .manInvalidTransition, .fecInvalidLength, .fecUncorrectable,
        .frameTruncated, .frameMalformed, .frameIntegrityMismatch] := by
  rcases rxFrameOp_cases ss with ⟨e, hm, hop⟩ | ⟨bs, e, hf, hop⟩ | ⟨d, e, hp, hop⟩ |
    ⟨bs, d, w, p, -, -, hop⟩ <;> rw [hop]
  · exact failsOnlyWith_error (failsOnlyWith_mono (manDecOp_failsOnlyWith ss 128#16 (by decide)) (by decide)) hm
  · exact failsOnlyWith_error (failsOnlyWith_mono (fecDecOp_failsOnlyWith bs) (by decide)) hf
  · exact failsOnlyWith_error (failsOnlyWith_mono (pfDesOp_failsOnlyWith d) (by decide)) hp
  · exact failsOnlyWith_ok _ _

/-! ### What each operation answers fits the response record -/

theorem responseWf_failure (c : Status) : responseWf (failure c.code) = true := by cases c <;> decide

theorem responseWf_okBytes (bs : ByteSeq) (h : bs.length ≤ 128) : responseWf (Response.okBytes bs) = true := by
  simp [responseWf, Response.okBytes_eq, statusCodes, h]

theorem responseWf_okSyms (ss : SymSeq) (h : ss.length ≤ 2048) : responseWf (Response.okSyms ss) = true := by
  simp [responseWf, Response.okSyms_eq, statusCodes, h]

theorem responseWf_okDecoded (bs : ByteSeq) (w : Nat) (h : bs.length ≤ 128) (hw : w ≤ 16) :
    responseWf (Response.okDecoded bs w) = true := by
  have hmod : w % 65536 = w := Nat.mod_eq_of_lt (by omega)
  simp [responseWf, Response.okDecoded_eq, statusCodes, h, hw, hmod]

theorem responseWf_okPacket (p : Packet) (w : Nat) (hp : p.payload.length ≤ 64) (hw : w ≤ 16) :
    responseWf (Response.okPacket p w) = true := by
  have hmod : w % 65536 = w := Nat.mod_eq_of_lt (by omega)
  simp [responseWf, Response.okPacket_eq, statusCodes, Packet.valid, show Config.maxPayload = 64 from rfl, hp, hw, hmod]

theorem length_manEncOp_le (bs : ByteSeq) (ss : SymSeq) (h : manEncOp bs = .ok ss) : ss.length ≤ 2048 := by
  rw [manEncOp_eq] at h
  split_ifs at h with hlimit
  cases h
  rw [length_manEncode]
  omega

theorem length_manDecOp_le (ss : SymSeq) (cap : U16) (bs : ByteSeq) (h : manDecOp ss cap = .ok bs) :
    bs.length ≤ 128 := by
  rw [manDecOp_eq] at h
  split_ifs at h with hlimit hwhole
  rw [manDecodeBytes_eq_ok_iff _ ss bs (by omega)] at h
  have := length_manEncode bs
  rw [h] at this
  omega

theorem length_rsEncOp_le (d bs : ByteSeq) (h : rsEncOp d = .ok bs) : bs.length ≤ 128 := by
  rw [rsEncOp_eq] at h
  split_ifs at h with hlimit hlen
  cases h
  rw [length_rsEncode d (not_not.mp hlen)]
  omega

/-- A decoded word has 24 bytes and at most four corrections (41_reed_solomon.md R129). -/
theorem rsDecode_bounds (r : ByteSeq) (hr : r.length = 32) (x : ByteSeq × Nat) (h : rsDecode r = .ok x) :
    x.1.length = 24 ∧ x.2 ≤ 4 := by
  rcases near_or_far r with ⟨c, hc, hd⟩ | hfar
  · rw [rsDecode_of_near r c hr hc hd] at h
    cases h
    exact ⟨by simp [length_of_isCodeword c hc], hd⟩
  · rw [rsDecode_of_far r hfar] at h
    cases h

theorem rsDecOp_bounds (r : ByteSeq) (x : ByteSeq × Nat) (h : rsDecOp r = .ok x) : x.1.length = 24 ∧ x.2 ≤ 4 := by
  rw [rsDecOp_eq] at h
  split_ifs at h with hlimit hlen
  exact rsDecode_bounds r (not_not.mp hlen) x h

theorem length_fecEncOp_le (b bs : ByteSeq) (h : fecEncOp b = .ok bs) : bs.length ≤ 128 := by
  rw [fecEncOp_eq] at h
  split_ifs at h with hlimit
  cases h
  rw [length_flatMap_words rsEncode _ (length_rsEncode_of_mem_split b), length_split]
  omega

theorem fecDecodeBlocks_bounds (m : Nat) (b : ByteSeq) (hb : b.length = 32 * m) (x : ByteSeq × Nat)
    (h : fecDecodeBlocks m b = .ok x) : x.1.length = 24 * m ∧ x.2 ≤ 4 * m := by
  induction m generalizing b x with
  | zero => cases h; simp
  | succ m ih =>
    rw [fecDecodeBlocks_succ m b (by omega)] at h
    cases hword : rsDecode (word b 0) with
    | error e => rw [hword] at h; cases h
    | ok y =>
      cases hrest : fecDecodeBlocks m (b.drop 32) with
      | error e => rw [hword, ok_bind, hrest] at h; cases h
      | ok z =>
        rw [hword, ok_bind, hrest] at h
        cases h
        obtain ⟨hlen, hcount⟩ := rsDecode_bounds _ (length_word b 0 (m + 1) hb (by omega)) y hword
        obtain ⟨hlens, hcounts⟩ := ih (b.drop 32) (by simp [hb]; omega) z hrest
        exact ⟨by simp [hlen, hlens]; omega, by show y.2 + z.2 ≤ _; omega⟩

/-- The counts of at most four code words sum to at most 16 (41_reed_solomon.md R134). -/
theorem fecDecOp_bounds (b : ByteSeq) (x : ByteSeq × Nat) (h : fecDecOp b = .ok x) : x.1.length ≤ 128 ∧ x.2 ≤ 16 := by
  rw [fecDecOp_eq] at h
  split_ifs at h with hlimit hwhole
  obtain ⟨hlen, hcount⟩ := fecDecodeBlocks_bounds (b.length / 32) b (by omega) x h
  exact ⟨by omega, by omega⟩

theorem length_pfSerOp_le (p : Packet) (bs : ByteSeq) (h : pfSerOp p = .ok bs) : bs.length ≤ 128 := by
  rw [pfSerOp_eq] at h
  split_ifs at h with hlimit
  cases h
  rw [length_frameOf]
  omega

theorem length_payload_pfDesOp_le (b : ByteSeq) (p : Packet) (h : pfDesOp b = .ok p) : p.payload.length ≤ 64 :=
  ((pfDesOp_eq_ok_iff b p).mp h).2.1

theorem length_txFrameOp_le (p : Packet) (ss : SymSeq) (h : txFrameOp p = .ok ss) : ss.length ≤ 2048 := by
  rcases Nat.lt_or_ge 64 p.payload.length with hp | hp
  · rw [txFrameOp_of_invalid p hp] at h
    cases h
  · rw [txFrameOp_of_valid p hp] at h
    cases h
    have := length_codeStream_le p hp
    rw [length_manEncode]
    omega

theorem rxFrameOp_bounds (ss : SymSeq) (x : Packet × Nat) (h : rxFrameOp ss = .ok x) :
    x.1.payload.length ≤ 64 ∧ x.2 ≤ 16 := by
  rcases rxFrameOp_cases ss with ⟨e, -, hop⟩ | ⟨bs, e, -, hop⟩ | ⟨d, e, -, hop⟩ | ⟨bs, d, w, p, hf, hp, hop⟩ <;>
    rw [hop] at h <;> cases h
  exact ⟨length_payload_pfDesOp_le d p hp, (fecDecOp_bounds bs (d, w) hf).2⟩

/-! ### The response of every operation -/

/-- The body of an operation and the response it builds. -/
def bodyOf : Instr → Except Stop Response
  | .manEnc bs     => (manEncOp bs).map Response.okSyms
  | .manDec ss cap => (manDecOp ss cap).map Response.okBytes
  | .rsEnc bs      => (rsEncOp bs).map Response.okBytes
  | .rsDec bs      => (rsDecOp bs).map decodedResponse
  | .fecEnc bs     => (fecEncOp bs).map Response.okBytes
  | .fecDec bs     => (fecDecOp bs).map decodedResponse
  | .pfSer p       => (pfSerOp p).map Response.okBytes
  | .pfDes bs      => (pfDesOp bs).map packetResponse
  | .txFrame p     => (txFrameOp p).map Response.okSyms
  | .rxFrame ss    => (rxFrameOp ss).map receivedResponse

theorem exec_eq_finish (i : Instr) (s : State) : exec i s = finish (bodyOf i) s := by cases i <;> rfl

theorem failsOnlyWith_map {α : Type} {op : Except Stop α} {cs : List Status} (build : α → Response)
    (h : FailsOnlyWith op cs) : FailsOnlyWith (op.map build) cs := by
  cases op with
  | error e => exact fun e' he => h e' (by cases he; rfl)
  | ok a => exact failsOnlyWith_ok _ _

/-- No operation fails with a status outside its row of the table, and none faults (60_exceptions.md R200, R204). -/
theorem bodyOf_failsOnlyWith (i : Instr) : FailsOnlyWith (bodyOf i) (failuresOf i) := by
  cases i with
  | manEnc bs => exact failsOnlyWith_map _ (manEncOp_failsOnlyWith bs)
  | manDec ss cap => exact failsOnlyWith_map _ (manDecOp_failsOnlyWith_room ss cap)
  | rsEnc d => exact failsOnlyWith_map _ (rsEncOp_failsOnlyWith d)
  | rsDec r => exact failsOnlyWith_map _ (rsDecOp_failsOnlyWith r)
  | fecEnc b => exact failsOnlyWith_map _ (fecEncOp_failsOnlyWith b)
  | fecDec b => exact failsOnlyWith_map _ (fecDecOp_failsOnlyWith b)
  | pfSer p => exact failsOnlyWith_map _ (pfSerOp_failsOnlyWith p)
  | pfDes b => exact failsOnlyWith_map _ (pfDesOp_failsOnlyWith b)
  | txFrame p => exact failsOnlyWith_map _ (txFrameOp_failsOnlyWith p)
  | rxFrame ss => exact failsOnlyWith_map _ (rxFrameOp_failsOnlyWith ss)

theorem wellFormed_of_map_eq_ok {α : Type} {op : Except Stop α} {build : α → Response} {x : Response}
    (h : op.map build = .ok x) (hbuild : ∀ a, op = .ok a → (build a).status = 0x00#8 ∧ responseWf (build a) = true) :
    x.status = 0x00#8 ∧ responseWf x = true := by
  cases op with
  | error e => cases h
  | ok a => cases h; exact hbuild a rfl

/-- What an operation answers has status OK and fits the response record (10_state.md R24, 60_exceptions.md R202). -/
theorem bodyOf_wellFormed (i : Instr) (x : Response) (h : bodyOf i = .ok x) :
    x.status = 0x00#8 ∧ responseWf x = true := by
  cases i with
  | manEnc bs =>
    exact wellFormed_of_map_eq_ok h fun ss hss => ⟨rfl, responseWf_okSyms ss (length_manEncOp_le bs ss hss)⟩
  | manDec ss cap =>
    exact wellFormed_of_map_eq_ok h fun bs hbs => ⟨rfl, responseWf_okBytes bs (length_manDecOp_le ss cap bs hbs)⟩
  | rsEnc d =>
    exact wellFormed_of_map_eq_ok h fun bs hbs => ⟨rfl, responseWf_okBytes bs (length_rsEncOp_le d bs hbs)⟩
  | rsDec r =>
    refine wellFormed_of_map_eq_ok h fun y hy => ?_
    obtain ⟨hlen, hcount⟩ := rsDecOp_bounds r y hy
    exact ⟨rfl, responseWf_okDecoded y.1 y.2 (by omega) (by omega)⟩
  | fecEnc b =>
    exact wellFormed_of_map_eq_ok h fun bs hbs => ⟨rfl, responseWf_okBytes bs (length_fecEncOp_le b bs hbs)⟩
  | fecDec b =>
    refine wellFormed_of_map_eq_ok h fun y hy => ?_
    obtain ⟨hlen, hcount⟩ := fecDecOp_bounds b y hy
    exact ⟨rfl, responseWf_okDecoded y.1 y.2 hlen hcount⟩
  | pfSer p =>
    exact wellFormed_of_map_eq_ok h fun bs hbs => ⟨rfl, responseWf_okBytes bs (length_pfSerOp_le p bs hbs)⟩
  | pfDes b =>
    exact wellFormed_of_map_eq_ok h fun p hp =>
      ⟨rfl, responseWf_okPacket p 0 (length_payload_pfDesOp_le b p hp) (by omega)⟩
  | txFrame p =>
    exact wellFormed_of_map_eq_ok h fun ss hss => ⟨rfl, responseWf_okSyms ss (length_txFrameOp_le p ss hss)⟩
  | rxFrame ss =>
    refine wellFormed_of_map_eq_ok h fun y hy => ?_
    obtain ⟨hlen, hcount⟩ := rxFrameOp_bounds ss y hy
    exact ⟨rfl, responseWf_okPacket y.1 y.2 hlen hcount⟩

/-- Every operation completes with one well-formed response, the same in every state (60_exceptions.md R200 to R204). -/
theorem exists_response (i : Instr) :
    ∃ x, responseWf x = true ∧ x.status ∈ codesOf i ∧ ∀ s, exec i s = .next (s.complete x) := by
  simp only [exec_eq_finish, codesOf_eq]
  cases h : bodyOf i with
  | ok x =>
    obtain ⟨hstatus, hwf⟩ := bodyOf_wellFormed i x h
    exact ⟨x, hwf, by simp [hstatus], fun _ => rfl⟩
  | error e =>
    obtain ⟨c, hc, rfl⟩ := bodyOf_failsOnlyWith i e h
    exact ⟨failure c.code, responseWf_failure c, List.mem_cons_of_mem _ (List.mem_map_of_mem hc), fun _ => rfl⟩

/-- Settles O5, by the statuses and the bounds of the ten bodies. -/
theorem everyOperationAnswersOneWellFormedResponse : Obligations.EveryOperationAnswersOneWellFormedResponse :=
  exists_response

end Sys2Proof.Responses
end

section
/-!
PROOFS. The "raised by" column of 60_exceptions.md R200 is exact: for every operation and status, operands on which the
model ends with that status.
-/

namespace Sys2Proof.Responses

open Sys2Proof Sys2Proof.Machine Sys2Proof.Safety Sys2Proof.Framer Sys2Proof.Pipeline

/-- The status an operation ends with, if its body ends in no fault. -/
def statusOf (i : Instr) : Option Byte :=
  match bodyOf i with
  | .ok x => some x.status
  | .error (.status c) => some c.code
  | .error (.fault _) => none

/-- The status of the body is that of the response in every state (10_state.md R27). -/
theorem exists_response_of_statusOf (i : Instr) (c : Byte) (h : statusOf i = some c) :
    ∃ x : Response, x.status = c ∧ ∀ s, exec i s = .next (s.complete x) := by
  simp only [exec_eq_finish]
  unfold statusOf at h
  rcases hbody : bodyOf i with (d | f) | x <;> rw [hbody] at h <;> cases h
  · exact ⟨failure d.code, rfl, fun _ => rfl⟩
  · exact ⟨x, rfl, fun _ => rfl⟩

/-! ### Operands for every status -/

/-- A word with no code word within four symbols of it. -/
def farWord : ByteSeq := rep 1#8 5 ++ rep 0#8 27

/-- Operands of MAN.ENC that end it with a status. -/
def manEncExample : Status → ByteSeq
  | .inputTooLong => rep 0#8 129
  | _ => []

/-- Operands of MAN.DEC that end it with a status. -/
def manDecExample : Status → SymSeq × U16
  | .inputTooLong => (rep true 2049, 0#16)
  | .manInvalidLength => ([true], 0#16)
  | .manBufferTooSmall => (rep true 16, 0#16)
  | .manInvalidTransition => (rep true 16, 1#16)
  | _ => ([], 0#16)

/-- Operands of RS.ENC that end it with a status. -/
def rsEncExample : Status → ByteSeq
  | .inputTooLong => rep 0#8 129
  | .fecInvalidLength => []
  | _ => rep 0#8 24

/-- Operands of RS.DEC that end it with a status. -/
def rsDecExample : Status → ByteSeq
  | .inputTooLong => rep 0#8 129
  | .fecInvalidLength => []
  | .fecUncorrectable => farWord
  | _ => rep 0#8 32

/-- Operands of FEC.ENC that end it with a status. -/
def fecEncExample : Status → ByteSeq
  | .inputTooLong => rep 0#8 97
  | _ => []

/-- Operands of FEC.DEC that end it with a status. -/
def fecDecExample : Status → ByteSeq
  | .inputTooLong => rep 0#8 129
  | .fecInvalidLength => [0#8]
  | .fecUncorrectable => farWord
  | _ => []

/-- Packets that end PF.SER and TX.FRAME with a status. -/
def packetExample : Status → Packet
  | .framePayloadTooLarge => { Packet.blank with payload := rep 0#8 65 }
  | _ => Packet.blank

/-- Operands of PF.DES that end it with a status. -/
def pfDesExample : Status → ByteSeq
  | .inputTooLong => rep 0#8 129
  | .frameTruncated => []
  | .frameMalformed => rep 0#8 6 ++ [65#8] ++ rep 0#8 17
  | .frameIntegrityMismatch => rep 0#8 24
  | _ => frameOf Packet.blank

/-- Operands of RX.FRAME that end it with a status: each layer's own, sent through the layers before it. -/
def rxFrameExample : Status → SymSeq
  | .inputTooLong => rep true 2049
  | .manInvalidLength => [true]
  | .manInvalidTransition => rep true 16
  | .fecInvalidLength => manEncode (fecDecExample .fecInvalidLength)
  | .fecUncorrectable => manEncode farWord
  | .frameTruncated => []
  | .frameMalformed => manEncode (rsEncode (pfDesExample .frameMalformed))
  | .frameIntegrityMismatch => manEncode (rsEncode (pfDesExample .frameIntegrityMismatch))
  | _ => manEncode (codeStream Packet.blank)

/-- A request of the same op that ends with the status. -/
def exampleOf (i : Instr) (c : Status) : Instr :=
  match i with
  | .manEnc _   => .manEnc (manEncExample c)
  | .manDec _ _ => .manDec (manDecExample c).1 (manDecExample c).2
  | .rsEnc _    => .rsEnc (rsEncExample c)
  | .rsDec _    => .rsDec (rsDecExample c)
  | .fecEnc _   => .fecEnc (fecEncExample c)
  | .fecDec _   => .fecDec (fecDecExample c)
  | .pfSer _    => .pfSer (packetExample c)
  | .pfDes _    => .pfDes (pfDesExample c)
  | .txFrame _  => .txFrame (packetExample c)
  | .rxFrame _  => .rxFrame (rxFrameExample c)

theorem opcode_exampleOf (i : Instr) (c : Status) : opcode (exampleOf i c) = opcode i := by cases i <;> rfl

theorem statusOf_manEncExample :
    ∀ c ∈ [.ok, .inputTooLong], statusOf (.manEnc (manEncExample c)) = some c.code := by decide +kernel

theorem statusOf_manDecExample :
    ∀ c ∈ [.ok, .inputTooLong, .manInvalidLength, .manBufferTooSmall, .manInvalidTransition],
      statusOf (.manDec (manDecExample c).1 (manDecExample c).2) = some c.code := by decide +kernel

theorem statusOf_rsEncExample :
    ∀ c ∈ [.ok, .inputTooLong, .fecInvalidLength], statusOf (.rsEnc (rsEncExample c)) = some c.code := by
  decide +kernel

theorem statusOf_rsDecExample :
    ∀ c ∈ [.ok, .inputTooLong, .fecInvalidLength, .fecUncorrectable],
      statusOf (.rsDec (rsDecExample c)) = some c.code := by decide +kernel

theorem statusOf_fecEncExample :
    ∀ c ∈ [.ok, .inputTooLong], statusOf (.fecEnc (fecEncExample c)) = some c.code := by decide +kernel

theorem statusOf_fecDecExample :
    ∀ c ∈ [.ok, .inputTooLong, .fecInvalidLength, .fecUncorrectable],
      statusOf (.fecDec (fecDecExample c)) = some c.code := by decide +kernel

theorem statusOf_pfSerExample :
    ∀ c ∈ [.ok, .framePayloadTooLarge], statusOf (.pfSer (packetExample c)) = some c.code := by decide +kernel

theorem statusOf_pfDesExample :
    ∀ c ∈ [.ok, .inputTooLong, .frameTruncated, .frameMalformed, .frameIntegrityMismatch],
      statusOf (.pfDes (pfDesExample c)) = some c.code := by decide +kernel

theorem statusOf_txFrameExample :
    ∀ c ∈ [.ok, .framePayloadTooLarge], statusOf (.txFrame (packetExample c)) = some c.code := by decide +kernel

theorem statusOf_rxFrameExample :
    ∀ c ∈ [.ok, .inputTooLong, .manInvalidLength, .manInvalidTransition, .fecInvalidLength, .fecUncorrectable,
        .frameTruncated, .frameMalformed, .frameIntegrityMismatch],
      statusOf (.rxFrame (rxFrameExample c)) = some c.code := by decide +kernel

/-- Every status of an operation's row is the status of its example (60_exceptions.md R200). -/
theorem statusOf_exampleOf (i : Instr) : ∀ c ∈ .ok :: failuresOf i, statusOf (exampleOf i c) = some c.code := by
  cases i with
  | manEnc _ => exact statusOf_manEncExample
  | manDec _ _ => exact statusOf_manDecExample
  | rsEnc _ => exact statusOf_rsEncExample
  | rsDec _ => exact statusOf_rsDecExample
  | fecEnc _ => exact statusOf_fecEncExample
  | fecDec _ => exact statusOf_fecDecExample
  | pfSer _ => exact statusOf_pfSerExample
  | pfDes _ => exact statusOf_pfDesExample
  | txFrame _ => exact statusOf_txFrameExample
  | rxFrame _ => exact statusOf_rxFrameExample

/-- Settles O6, by the examples. -/
theorem everyStatusInTheRaisedByColumnOccurs : Obligations.EveryStatusInTheRaisedByColumnOccurs := by
  intro i code hcode
  obtain ⟨c, hc, rfl⟩ : ∃ c ∈ .ok :: failuresOf i, c.code = code := by
    rw [codesOf_eq] at hcode
    exact List.mem_map.mp hcode
  exact ⟨exampleOf i c, opcode_exampleOf i c, exists_response_of_statusOf _ _ (statusOf_exampleOf i c hc)⟩

end Sys2Proof.Responses
end

section
/-!
PROOFS. The port (10_state.md section 4, 60_exceptions.md, 70_reset_and_hazards.md): each request has one answer, which
COMPLETE gives in every state that latched it; what each step does follows from that and `step_cases`.
-/

namespace Sys2Proof.Port

open Sys2Proof Sys2Proof.Machine Sys2Proof.Safety Sys2Proof.Encoding Sys2Proof.Responses

/-! ### The answer of a request -/

/-- The response of a request: its operation's, or the ILLEGAL_OP failure (30_encoding.md R63, R64). -/
structure IsAnswer (r : Request) (x : Response) : Prop where
  wf : responseWf x = true
  ofOperation : ∀ i, decode r = .ok i → ∀ s, exec i s = .next (s.complete x)
  illegal : r.op ∉ legalOps → x = failure 0xF0#8

theorem isAnswer_illegal (r : Request) (h : r.op ∉ legalOps) : IsAnswer r (failure 0xF0#8) where
  wf := responseWf_failure .illegalOp
  ofOperation i hi := absurd ((exists_decode_iff r).mp ⟨i, hi⟩) h
  illegal _ := rfl

/-- Every request has an answer (60_exceptions.md R204). -/
theorem exists_isAnswer (r : Request) : ∃ x, IsAnswer r x := by
  by_cases h : r.op ∈ legalOps
  · obtain ⟨i, hi⟩ := exists_decode_of_mem_legalOps r h
    obtain ⟨x, hwf, -, hx⟩ := exists_response i
    refine ⟨x, hwf, fun j hj => ?_, fun hn => absurd h hn⟩
    obtain rfl : i = j := Except.ok.inj (hi.symm.trans hj)
    exact hx
  · exact ⟨_, isAnswer_illegal r h⟩

/-- COMPLETE gives the latched request's answer (10_state.md R27). -/
theorem IsAnswer.completeRequest {r : Request} {x : Response} (h : IsAnswer r x) (s : State) (hq : s.req = some r) :
    completeRequest s = .next (s.passTurn.complete x) := by
  by_cases hop : r.op ∈ legalOps
  · obtain ⟨i, hi⟩ := exists_decode_of_mem_legalOps r hop
    rw [completeRequest_ok s r i hq hi, h.ofOperation i hi]
  · rw [completeRequest_illegal s r _ hq (decode_of_notMem_legalOps r hop), h.illegal hop]
    rfl

/-- Requests that agree on the fields read have the same answer (10_state.md section 4, determinism). -/
theorem IsAnswer.of_agree {r r' : Request} {x : Response} (h : IsAnswer r x) (hag : agreeOnFieldsRead r r') :
    IsAnswer r' x := by
  by_cases hop : r.op ∈ legalOps
  · obtain ⟨i, hi⟩ := exists_decode_of_mem_legalOps r hop
    have hi' : decode r' = .ok i := (decode_eq_ok_iff_agreeOnFieldsRead r' i).mpr
      (agreeOnFieldsRead_trans ((decode_eq_ok_iff_agreeOnFieldsRead r i).mp hi) hag)
    refine ⟨h.wf, fun j hj => ?_, fun hn => absurd (hag.1 ▸ hop) hn⟩
    obtain rfl : i = j := Except.ok.inj (hi'.symm.trans hj)
    exact h.ofOperation i hi
  · rw [h.illegal hop]
    exact isAnswer_illegal r' (hag.1 ▸ hop)

/-! ### Each step by its turn -/

/-- A reset in turn is taken in either phase (70_reset_and_hazards.md R230). -/
theorem step_reset (s : State) (t : List Turn) (ht : s.turns = .reset :: t) : step s = .next s.takeReset := by
  simp only [step, s.nextAction_reset t ht]

/-- While BUSY, with no reset next, the block completes (70_reset_and_hazards.md R240). -/
theorem step_busy (s : State) (hp : s.phase = .busy) (hn : noResetNext s) : step s = completeRequest s := by
  simp only [step, s.nextAction_busy hp hn]

theorem step_submit (s : State) (r : Request) (t : List Turn) (hp : s.phase = .idle) (ht : s.turns = .submit r :: t) :
    step s = .next (s.takeSubmit r) := by
  simp only [step, s.nextAction_submit r t hp ht]

theorem step_read (s : State) (t : List Turn) (hp : s.phase = .idle) (ht : s.turns = .read :: t) :
    step s = s.takeRead := by
  simp only [step, s.nextAction_read t hp ht]

theorem step_read_some (s : State) (t : List Turn) (x : Response) (hp : s.phase = .idle) (ht : s.turns = .read :: t)
    (hx : s.rsp = some x) :
    step s = .next { phase := s.phase, req := s.req, rsp := some x, turns := t, lastRead := some x } := by
  rw [step_read s t hp ht, takeRead_some s x hx]
  simp [State.dropTurn, ht, hx]

theorem step_read_none (s : State) (t : List Turn) (hp : s.phase = .idle) (ht : s.turns = .read :: t)
    (hx : s.rsp = none) : step s = .fault .readNoResponse := by
  rw [step_read s t hp ht, takeRead_none s hx]

/-- A BUSY block with a latched request goes on to its answer (10_state.md R27). -/
theorem IsAnswer.step {r : Request} {x : Response} (h : IsAnswer r x) (s : State) (hp : s.phase = .busy)
    (hq : s.req = some r) (hn : noResetNext s) : step s = .next (s.passTurn.complete x) := by
  rw [step_busy s hp hn, h.completeRequest s hq]

/-- A requester's turn is held while the block moves (70_reset_and_hazards.md R240). -/
theorem passTurn_of_head_ne (s : State) (h : s.turns.head? ≠ some .complete) : s.passTurn = s := by
  rcases s.passTurn_turns with ⟨t, ht, -⟩ | ⟨-, hs⟩
  · simp [ht] at h
  · exact hs

theorem passTurn_of_complete (s : State) (t : List Turn) (h : s.turns = .complete :: t) :
    s.passTurn = { s with turns := t } := by
  simp [State.passTurn, h, State.dropTurn]

/-! ### The invariant -/

/-- The invariant of the machine, part by part (10_state.md R21, R26). -/
structure Invariant (s : State) : Prop where
  latched : s.phase = .busy ↔ s.req.isSome = true
  absent : s.phase = .busy → s.rsp = none
  response : ∀ x, s.rsp = some x → responseWf x = true
  held : ∀ x, s.lastRead = some x → responseWf x = true

theorem inv_iff (s : State) : inv s = true ↔ Invariant s := by
  have hparts : inv s = true ↔ (s.phase = .busy ↔ s.req.isSome = true) ∧ (s.phase = .busy → s.rsp = none)
      ∧ (∀ x, s.rsp = some x → responseWf x = true) ∧ ∀ x, s.lastRead = some x → responseWf x = true := by
    cases hp : s.phase <;> simp [inv, State.busy, State.rspValid, hp, and_assoc, Option.all_eq_true]
  exact hparts.trans ⟨fun ⟨hl, ha, hr, hh⟩ => ⟨hl, ha, hr, hh⟩, fun ⟨hl, ha, hr, hh⟩ => ⟨hl, ha, hr, hh⟩⟩

theorem Invariant.exists_req {s : State} (h : Invariant s) (hp : s.phase = .busy) : ∃ r, s.req = some r :=
  Option.isSome_iff_exists.mp (h.latched.mp hp)

/-- A state with the triple cleared. -/
theorem invariant_of_clear {s : State} (hp : s.phase = .idle) (hq : s.req = none) (hx : s.rsp = none)
    (hh : ∀ x, s.lastRead = some x → responseWf x = true) : Invariant s := by
  refine ⟨by simp [hp, hq], fun _ => hx, fun x h => ?_, hh⟩
  rw [hx] at h
  cases h

/-- What a step from a state of the invariant can be (10_state.md R26 to R28, 70_reset_and_hazards.md R230). -/
inductive StepOutcome (s : State) : Host.Outcome State Fault Refusal → Prop where
  | reset (ht : s.turns.head? = some .reset) : StepOutcome s (.next s.takeReset)
  | complete (x : Response) (hp : s.phase = .busy) (hn : s.turns.head? ≠ some .reset) (hx : responseWf x = true) :
      StepOutcome s (.next (s.passTurn.complete x))
  | submit (r : Request) (hp : s.phase = .idle) : StepOutcome s (.next (s.takeSubmit r))
  | read (x : Response) (hp : s.phase = .idle) (hx : s.rsp = some x) :
      StepOutcome s (.next { s.dropTurn with lastRead := some x })
  | readFault (hp : s.phase = .idle) (hx : s.rsp = none) (ht : s.turns.head? = some .read) :
      StepOutcome s (.fault .readNoResponse)
  | wait (hp : s.phase = .idle) : StepOutcome s (.next s.passTurn)

/-- A latched request has a well-formed answer, so the only fault left is that of a READ. -/
theorem Invariant.stepOutcome {s : State} (h : Invariant s) : StepOutcome s (step s) := by
  rcases step_cases s with ⟨t, ht, hs⟩ | ⟨hp, hn, -⟩ | ⟨r, t, hp, -, hs⟩ | ⟨t, hp, ht, hs⟩ | ⟨hp, -, hs⟩
  · exact hs ▸ .reset (by rw [ht]; rfl)
  · obtain ⟨r, hq⟩ := h.exists_req hp
    obtain ⟨x, hx⟩ := exists_isAnswer r
    exact hx.step s hp hq hn ▸ .complete x hp hn hx.wf
  · exact hs ▸ .submit r hp
  · rw [hs]
    cases hx : s.rsp with
    | some x => exact takeRead_some s x hx ▸ .read x hp hx
    | none => exact takeRead_none s hx ▸ .readFault hp hx (by rw [ht]; rfl)
  · exact hs ▸ .wait hp

theorem Invariant.preserved {s s' : State} (h : Invariant s) (hs : step s = .next s') : Invariant s' := by
  have hout := h.stepOutcome
  rw [hs] at hout
  cases hout with
  | reset => exact invariant_of_clear rfl rfl rfl h.held
  | complete x _ _ hx => exact ⟨by simp, by simp, by simpa using hx, by simpa using h.held⟩
  | submit r => exact ⟨by simp, by simp, by simp, by simpa using h.held⟩
  | read x _ hx => exact ⟨h.latched, h.absent, h.response, by simpa using h.response x hx⟩
  | wait => exact ⟨by simpa using h.latched, by simpa using h.absent, by simpa using h.response, by simpa using h.held⟩

/-- Settles O3, by the outcomes of a step. -/
theorem everyStepKeepsTheInvariant : Obligations.EveryStepKeepsTheInvariant := fun s s' h hs =>
  (inv_iff s').mpr (((inv_iff s).mp h).preserved hs)

/-- Settles O4: of the outcomes of a step only a READ with no response has no next state. -/
theorem onlyAReadWithNoResponseFaults : Obligations.OnlyAReadWithNoResponseFaults := by
  intro s h
  have hout := ((inv_iff s).mp h).stepOutcome
  generalize step s = o at hout
  cases hout with
  | readFault hp hx ht => exact .inr ⟨hp, hx, ht, rfl⟩
  | reset => exact .inl ⟨_, rfl⟩
  | complete => exact .inl ⟨_, rfl⟩
  | submit => exact .inl ⟨_, rfl⟩
  | read => exact .inl ⟨_, rfl⟩
  | wait => exact .inl ⟨_, rfl⟩

/-- Settles O15: of the outcomes of a step only COMPLETE gives a response where there was none, and only COMPLETE and
reset leave BUSY. -/
theorem completionIsSignalledByBusyAndRspValid : Obligations.CompletionIsSignalledByBusyAndRspValid := by
  refine ⟨fun s s' h hs => ?_, fun s s' hv => by simp only [State.irqLine, hv]⟩
  have hidle : s.phase = .idle → s.busy ≠ true := fun hp => by simp [State.busy, hp]
  have hout := ((inv_iff s).mp h).stepOutcome
  rw [hs] at hout
  cases hout with
  | reset ht => exact ⟨fun _ hv => absurd hv (by simp), fun _ _ => .inr ⟨rfl, ht⟩⟩
  | complete x hp hn => exact ⟨fun _ _ => ⟨(s.busy_iff).mpr hp, rfl, hn⟩, fun _ _ => .inl ⟨rfl, hn⟩⟩
  | submit r hp => exact ⟨fun _ hv => absurd hv (by simp), fun hb => absurd hb (hidle hp)⟩
  | read x hp hx => exact ⟨fun hv => by simp [State.rspValid, hx] at hv, fun hb => absurd hb (hidle hp)⟩
  | wait hp => exact ⟨fun hv hv' => by simp_all [State.rspValid], fun hb => absurd hb (hidle hp)⟩

/-! ### Single steps -/

/-- Settles O1: the reset values, and `invariant_of_clear`. -/
theorem resetStateIsIdleWithNothingPresent : Obligations.ResetStateIsIdleWithNothingPresent :=
  ⟨rfl, rfl, rfl, rfl, rfl, (inv_iff _).mpr (invariant_of_clear rfl rfl rfl nofun)⟩

/-- Settles O2, by `step_reset`. -/
theorem resetEventClearsTheTripleInEitherPhase : Obligations.ResetEventClearsTheTripleInEitherPhase := by
  intro s t ht
  rw [step_reset s t ht]
  simp [State.takeReset, State.dropTurn, State.clear, ht]

/-- Settles O7: the block completes in the state its own turn has passed from. -/
theorem stepRunsTheLatchedOperation : Obligations.StepRunsTheLatchedOperation := by
  intro s r i hp hq hi hn
  refine ⟨?_, passTurn_of_complete s, passTurn_of_head_ne s⟩
  rw [step_busy s hp hn, completeRequest_ok s r i hq hi]

/-- Settles O8: ten of the 256 op values are in the table, and the answer to any other is the ILLEGAL_OP failure. -/
theorem illegalOpCompletesWithIllegalOpStatus : Obligations.IllegalOpCompletesWithIllegalOpStatus :=
  ⟨by decide +kernel, fun s r hp hq hop hn => (isAnswer_illegal r hop).step s hp hq hn⟩

/-- Settles O9, by `step_submit`. -/
theorem submitLatchesTheRequestAndClearsTheResponse : Obligations.SubmitLatchesTheRequestAndClearsTheResponse := by
  intro s r t hp ht
  rw [step_submit s r t hp ht]
  simp [State.takeSubmit, State.dropTurn, State.latch, ht]

/-- Settles O10: the block completes, and a requester's turn is not the block's to use up. -/
theorem requesterHoldsWhileBusyUntilCompletion : Obligations.RequesterHoldsWhileBusyUntilCompletion := by
  intro s t h hp ht
  obtain ⟨r, hq⟩ := ((inv_iff s).mp h).exists_req hp
  obtain ⟨x, hx⟩ := exists_isAnswer r
  have hhead : noResetNext s ∧ s.turns.head? ≠ some .complete := by
    rcases ht with ht | ⟨r', ht⟩ <;> simp [noResetNext, ht]
  obtain ⟨hn, hheld⟩ := hhead
  refine ⟨x, ?_⟩
  rw [hx.step s hp hq hn, passTurn_of_head_ne s hheld]
  rfl

/-- Settles O11, by the two cases of a READ turn. -/
theorem readReturnsTheResponseOrFaults : Obligations.ReadReturnsTheResponseOrFaults := by
  intro s t hp ht
  exact ⟨fun x => step_read_some s t x hp ht, step_read_none s t hp ht⟩

/-- Settles O14: the two requests have one answer. -/
theorem responseDependsOnlyOnTheFieldsRead : Obligations.ResponseDependsOnlyOnTheFieldsRead := by
  intro s s' r r' hp hp' hq hq' hn hn' hag
  obtain ⟨x, hx⟩ := exists_isAnswer r
  exact ⟨x, hx.step s hp hq hn, (hx.of_agree hag).step s' hp' hq' hn'⟩

/-- Settles O16: with no turn there is none to use up. -/
theorem idleBlockWithNoTurnWaits : Obligations.IdleBlockWithNoTurnWaits := by
  intro s hp ht
  simp only [step, s.nextAction_wait hp (.inl ht)]
  rw [passTurn_of_head_ne s (by simp [ht])]

/-! ### Runs of the machine -/

theorem run_succ_of_next (M : Host.Core) (k : Nat) {s s' : M.State} (h : M.step s = .next s') :
    M.run (k + 1) s = M.run k s' := by
  rw [Host.Core.run, h]

theorem run_succ_of_fault (M : Host.Core) (k : Nat) {s : M.State} {f : M.Fault} (h : M.step s = .fault f) :
    M.run (k + 1) s = .fault f := by
  rw [Host.Core.run, h]

/-- Settles O12: SUBMIT latches, COMPLETE gives the answer while the READ is held, READ takes it. -/
theorem submittedRequestIsAnsweredAndReadBack : Obligations.SubmittedRequestIsAnsweredAndReadBack := by
  intro s r t hp ht
  obtain ⟨x, hx⟩ := exists_isAnswer r
  have hturns : (s.takeSubmit r).turns = .read :: t := by simp [ht]
  have hcomplete : step (s.takeSubmit r) = .next ((s.takeSubmit r).complete x) := by
    rw [hx.step _ rfl rfl (by simp [noResetNext, ht]), passTurn_of_head_ne _ (by simp [ht])]
  have hread := step_read_some ((s.takeSubmit r).complete x) t x rfl hturns rfl
  exact ⟨x, hx.wf,
    (run_succ_of_next core 2 (step_submit s r _ hp ht)).trans
      ((run_succ_of_next core 1 hcomplete).trans (run_succ_of_next core 0 hread)),
    hx.ofOperation, hx.illegal⟩

/-- Settles O13: the reset after the SUBMIT clears the triple, and the READ finds no response. -/
theorem requestAbandonedByResetLeavesNoResponse : Obligations.RequestAbandonedByResetLeavesNoResponse := by
  intro s r t hp ht
  have hturns : (s.takeSubmit r).turns = .reset :: .read :: t := by simp [ht]
  have hreset : step (s.takeSubmit r)
      = .next { phase := .idle, req := none, rsp := none, turns := .read :: t, lastRead := s.lastRead } := by
    rw [step_reset _ _ hturns]
    simp [State.takeReset, State.clear, State.dropTurn, ht]
  have hread := step_read_none
    { phase := .idle, req := none, rsp := none, turns := .read :: t, lastRead := s.lastRead } t rfl rfl rfl
  have hsubmit := step_submit s r _ hp ht
  constructor
  · exact (run_succ_of_next core 1 hsubmit).trans (run_succ_of_next core 0 hreset)
  · exact (run_succ_of_next core 2 hsubmit).trans
      ((run_succ_of_next core 1 hreset).trans (run_succ_of_fault core 0 hread))

end Sys2Proof.Port
end

section
/-!
PROOFS. Packed symbols (20_memory.md R44) and the concatenation of inputs of MAN.DEC and of the FEC operations
(40_manchester.md R105, 41_reed_solomon.md R135).
-/

namespace Sys2Proof.Manchester

open Sys2Proof Sys2Proof.Machine Sys2Proof.Safety

/-! ### Packed symbols -/

theorem packSyms_bitsMsbFirst_append (b : Byte) (rest : SymSeq) :
    packSyms (bitsMsbFirst b ++ rest) = (packSyms rest).map (b :: ·) := by
  show (packSyms rest).map (byteOfBits 0#8 (bitsMsbFirst b) :: ·) = _
  rw [byteOfBits_bitsMsbFirst]

/-- Packing undoes unpacking (20_memory.md R44). -/
theorem packSyms_unpackSyms (bs : ByteSeq) : packSyms (unpackSyms bs) = some bs := by
  induction bs with
  | nil => rfl
  | cons b bs ih => rw [unpackSyms, packSyms_bitsMsbFirst_append, ih]; rfl

/-- A packed form stands for eight symbols a byte (20_memory.md R44). -/
theorem length_of_packSyms (ss : SymSeq) (bs : ByteSeq) (h : packSyms ss = some bs) : ss.length = 8 * bs.length := by
  induction bs generalizing ss with
  | nil =>
    unfold packSyms at h
    split at h <;> simp_all
  | cons b bs ih =>
    unfold packSyms at h
    split at h
    · cases h
    · next rest =>
      obtain ⟨rest', hrest, hcons⟩ := Option.map_eq_some_iff.mp h
      cases hcons
      simp [ih _ hrest]
      omega
    · cases h

/-- Whole groups of eight symbols are unpacked from their packed form (20_memory.md R44). -/
theorem exists_packSyms (ss : SymSeq) (h : ss.length % 8 = 0) : ∃ bs, packSyms ss = some bs ∧ unpackSyms bs = ss := by
  obtain ⟨bs, -, rfl⟩ := exists_unpackSyms (ss.length / 8) ss (by omega)
  exact ⟨bs, packSyms_unpackSyms bs, rfl⟩

/-- Settles O20: whole groups of eight symbols have a packed form, and only they do. -/
theorem packedSymbolsRoundTrip : Obligations.PackedSymbolsRoundTrip := by
  refine ⟨fun b => ⟨length_unpackSyms b, getElem?_unpackSyms b⟩, packSyms_unpackSyms, fun ss b h => ?unpack,
    fun ss => ⟨fun hnone hwhole => ?whole, fun hpart => ?part⟩⟩
  case unpack =>
    have hlen := length_of_packSyms ss b h
    obtain ⟨bs, hbs, hss⟩ := exists_packSyms ss (by omega)
    rw [← hss, Option.some.inj (h.symm.trans hbs)]
  case whole =>
    obtain ⟨bs, hbs, -⟩ := exists_packSyms ss hwhole
    rw [hnone] at hbs
    cases hbs
  case part =>
    refine Option.eq_none_iff_forall_ne_some.mpr fun bs h => ?_
    have := length_of_packSyms ss bs h
    omega

/-! ### MAN.DEC part by part -/

/-- The bytes of two parts are decoded one after the other (40_manchester.md R105). -/
theorem manDecodeBytes_append (m n : Nat) (u v : SymSeq) (hu : u.length = 16 * m) :
    manDecodeBytes (m + n) (u ++ v) =
      (manDecodeBytes m u >>= fun a => manDecodeBytes n v >>= fun b => .ok (a ++ b)) := by
  induction m generalizing u with
  | zero =>
    obtain rfl : u = [] := List.length_eq_zero_iff.mp hu
    rw [List.nil_append, Nat.zero_add, manDecodeBytes, ok_bind]
    cases manDecodeBytes n v <;> rfl
  | succ m ih =>
    rw [Nat.add_right_comm, manDecodeBytes, manDecodeBytes, memRead_eq, memRead_eq, if_pos (by simp; omega),
      if_pos (by omega), ok_bind, ok_bind, List.drop_zero, List.drop_zero, List.take_append_of_le_length (by omega),
      List.drop_append_of_le_length (by omega), ih _ (by simp; omega)]
    cases pairBits (u.take 16) with
    | error e => rfl
    | ok bits =>
      rw [ok_bind, ok_bind]
      cases manDecodeBytes m (u.drop 16) with
      | error e => rfl
      | ok a => cases manDecodeBytes n v <;> rfl

end Sys2Proof.Manchester

namespace Sys2Proof.Concatenation

open Sys2Proof Sys2Proof.Machine Sys2Proof.Safety Sys2Proof.Manchester Sys2Proof.ReedSolomon Sys2Proof.Pipeline
  Sys2Proof.Responses

/-! ### The responses of two parts and of the whole -/

/-- When a whole is answered by its two parts in a row, and a part fails only with the status `c`, the responses of the
parts tell that of the whole. -/
theorem exists_responses_of_parts {α : Type} {opx opy opz : Except Stop α} {c : Status} (join : α → α → α)
    (build : α → Response) (hbuild : ∀ a, (build a).status = 0x00#8) (hc : c ≠ .ok) (hx : FailsOnlyWith opx [c])
    (hy : FailsOnlyWith opy [c]) (hz : opz = (opx >>= fun a => opy >>= fun b => .ok (join a b))) :
    ∃ x y z : Response, (∀ s, finish (opx.map build) s = .next (s.complete x))
      ∧ (∀ s, finish (opy.map build) s = .next (s.complete y))
      ∧ (∀ s, finish (opz.map build) s = .next (s.complete z))
      ∧ (x.status = 0x00#8 → y.status = 0x00#8 → ∃ a b, x = build a ∧ y = build b ∧ z = build (join a b))
      ∧ (x.status = c.code ∨ y.status = c.code → z = failure c.code) := by
  subst hz
  have hcode : c.code ≠ 0x00#8 := fun h => hc (code_injective (a₂ := .ok) h)
  cases opx with
  | error e =>
    obtain ⟨c', hc', rfl⟩ := hx e rfl
    obtain rfl := List.mem_singleton.mp hc'
    obtain ⟨y, hy⟩ := exists_answers hy (by simpa using hc.symm) build hbuild
    exact ⟨failure c'.code, y, failure c'.code, fun _ => rfl, hy.completes, fun _ => rfl,
      fun h => absurd h hcode, fun _ => rfl⟩
  | ok a =>
    cases opy with
    | error e =>
      obtain ⟨c', hc', rfl⟩ := hy e rfl
      obtain rfl := List.mem_singleton.mp hc'
      exact ⟨build a, failure c'.code, failure c'.code, fun _ => rfl, fun _ => rfl, fun _ => rfl,
        fun _ h => absurd h hcode, fun _ => rfl⟩
    | ok b =>
      refine ⟨build a, build b, build (join a b), fun _ => rfl, fun _ => rfl, fun _ => rfl,
        fun _ _ => ⟨a, b, rfl, rfl, rfl⟩, fun h => ?_⟩
      rw [hbuild, hbuild, or_self] at h
      exact absurd h.symm hcode

/-! ### MAN.DEC -/

/-- Within the limits only an illegal pair fails MAN_DEC (40_manchester.md R106). -/
theorem manDecOp_failsOnlyWith_of_fits (ss : SymSeq) (cap : U16) (hlimit : ss.length ≤ 2048)
    (hwhole : ss.length % 16 = 0) (hcap : ss.length / 16 ≤ cap.toNat) :
    FailsOnlyWith (manDecOp ss cap) [.manInvalidTransition] := by
  rw [manDecOp_of_fits ss cap hlimit hwhole hcap]
  rcases manDecodeBytes_cases (ss.length / 16) ss (by omega) with ⟨bs, hbs, -⟩ | hbad
  · exact hbs ▸ failsOnlyWith_ok bs _
  · exact hbad ▸ failsOnlyWith_status (by decide)

/-- Whole bytes in a row within the limits (40_manchester.md R105). -/
theorem manDecOp_append (u v : SymSeq) (cap : U16) (hu : u.length % 16 = 0) (hv : v.length % 16 = 0)
    (hlimit : u.length + v.length ≤ 2048) (hcap : (u.length + v.length) / 16 ≤ cap.toNat) :
    manDecOp (u ++ v) cap = (manDecOp u cap >>= fun a => manDecOp v cap >>= fun b => .ok (a ++ b)) := by
  have hlen : (u ++ v).length = u.length + v.length := List.length_append
  rw [manDecOp_of_fits u cap (by omega) hu (by omega), manDecOp_of_fits v cap (by omega) hv (by omega),
    manDecOp_of_fits (u ++ v) cap (by omega) (by omega) (by omega),
    show (u ++ v).length / 16 = u.length / 16 + v.length / 16 by omega, manDecodeBytes_append _ _ u v (by omega)]

/-- Settles O25: within the limits the decoding of the whole is the two decodings in a row, and each fails only by an
illegal pair. -/
theorem manDecDecodesEachPartAlone : Obligations.ManDecDecodesEachPartAlone := by
  intro u v cap hu hv hlimit hcap
  obtain ⟨x, y, z, hx, hy, hz, hok, hfail⟩ := exists_responses_of_parts (· ++ ·) Response.okBytes (fun _ => rfl)
    (by decide) (manDecOp_failsOnlyWith_of_fits u cap (by omega) hu (by omega))
    (manDecOp_failsOnlyWith_of_fits v cap (by omega) hv (by omega)) (manDecOp_append u v cap hu hv hlimit hcap)
  refine ⟨x, y, z, hx, hy, hz, fun hsx hsy => ?_, hfail⟩
  obtain ⟨a, b, rfl, rfl, rfl⟩ := hok hsx hsy
  exact ⟨rfl, rfl⟩

/-! ### FEC blocks -/

theorem splitBlocks_append (m n : Nat) (a b : ByteSeq) (ha : a.length = 24 * m) :
    splitBlocks (m + n) (a ++ b) = splitBlocks m a ++ splitBlocks n b := by
  induction m generalizing a with
  | zero =>
    obtain rfl : a = [] := List.length_eq_zero_iff.mp ha
    simp [splitBlocks]
  | succ m ih =>
    rw [Nat.add_right_comm, splitBlocks, splitBlocks, show Config.rsK = 24 from rfl,
      List.take_append_of_le_length (by omega), List.drop_append_of_le_length (by omega), ih _ (by simp; omega)]
    rfl

/-- Whole blocks in a row are split into the blocks of each part (41_reed_solomon.md R132). -/
theorem split_append (a b : ByteSeq) (ha : a.length % 24 = 0) : split (a ++ b) = split a ++ split b := by
  have hcount : ((a ++ b).length + 23) / 24 = (a.length + 23) / 24 + (b.length + 23) / 24 := by
    rw [List.length_append]; omega
  show splitBlocks (((a ++ b).length + 23) / 24) (a ++ b) = _
  rw [hcount]
  exact splitBlocks_append _ _ a b (by omega)

/-- Code words in a row are decoded one after the other, and their counts add (41_reed_solomon.md R135). -/
theorem fecDecodeBlocks_append (m n : Nat) (u v : ByteSeq) (hu : u.length = 32 * m) :
    fecDecodeBlocks (m + n) (u ++ v) =
      (fecDecodeBlocks m u >>= fun x => fecDecodeBlocks n v >>= fun y => .ok (x.1 ++ y.1, x.2 + y.2)) := by
  induction m generalizing u with
  | zero =>
    obtain rfl : u = [] := List.length_eq_zero_iff.mp hu
    rw [List.nil_append, Nat.zero_add, fecDecodeBlocks, ok_bind]
    cases fecDecodeBlocks n v <;> simp [bind, Except.bind]
  | succ m ih =>
    have hword : word (u ++ v) 0 = word u 0 := by
      rw [word_zero, word_zero, List.take_append_of_le_length (by omega)]
    rw [Nat.add_right_comm, fecDecodeBlocks_succ _ _ (by simp; omega), fecDecodeBlocks_succ _ _ (by omega), hword,
      List.drop_append_of_le_length (by omega), ih _ (by simp; omega)]
    cases rsDecode (word u 0) with
    | error e => rfl
    | ok x =>
      rw [ok_bind, ok_bind]
      cases fecDecodeBlocks m (u.drop 32) with
      | error e => rfl
      | ok y => cases fecDecodeBlocks n v <;> simp [bind, Except.bind, Nat.add_assoc]

theorem fecDecOp_of_fits (b : ByteSeq) (hlimit : b.length ≤ 128) (hwhole : b.length % 32 = 0) :
    fecDecOp b = fecDecodeBlocks (b.length / 32) b := by
  rw [fecDecOp_eq, if_neg (by omega), if_neg (by omega)]

/-- Whole code words in a row within the limit (41_reed_solomon.md R135). -/
theorem fecDecOp_append (u v : ByteSeq) (hu : u.length % 32 = 0) (hv : v.length % 32 = 0)
    (hlimit : u.length + v.length ≤ 128) :
    fecDecOp (u ++ v) = (fecDecOp u >>= fun x => fecDecOp v >>= fun y => .ok (x.1 ++ y.1, x.2 + y.2)) := by
  have hlen : (u ++ v).length = u.length + v.length := List.length_append
  rw [fecDecOp_of_fits u (by omega) hu, fecDecOp_of_fits v (by omega) hv, fecDecOp_of_fits _ (by omega) (by omega),
    show (u ++ v).length / 32 = u.length / 32 + v.length / 32 by omega, fecDecodeBlocks_append _ _ u v (by omega)]

theorem fecDecOp_failsOnlyWith_of_fits (b : ByteSeq) (hlimit : b.length ≤ 128) (hwhole : b.length % 32 = 0) :
    FailsOnlyWith (fecDecOp b) [.fecUncorrectable] := by
  rw [fecDecOp_of_fits b hlimit hwhole]
  exact fecDecodeBlocks_failsOnlyWith _ b (by omega)

theorem exec_fecEnc_of_le (b : ByteSeq) (h : b.length ≤ 96) (s : State) :
    exec (.fecEnc b) s = .next (s.complete (Response.okBytes ((split b).flatMap rsEncode))) := by
  rw [exec_fecEnc, fecEncOp_eq, if_neg (by omega)]
  rfl

/-- Settles O38: whole blocks in a row are split into the blocks of each part, and code words in a row are decoded one
after the other. -/
theorem fecBlocksAreIndependent : Obligations.FecBlocksAreIndependent := by
  refine ⟨fun a b ha hb hlimit => ?encoding, fun u v hu hv hlimit => ?decoding⟩
  case encoding =>
    refine ⟨_, _, _, exec_fecEnc_of_le a (by omega), exec_fecEnc_of_le b (by omega),
      exec_fecEnc_of_le (a ++ b) (by simpa using hlimit), rfl, ?_⟩
    rw [split_append a b ha, List.flatMap_append]
    rfl
  case decoding =>
    obtain ⟨x, y, z, hx, hy, hz, hok, hfail⟩ := exists_responses_of_parts
      (fun x y => (x.1 ++ y.1, x.2 + y.2)) decodedResponse (fun _ => rfl) (by decide)
      (fecDecOp_failsOnlyWith_of_fits u (by omega) hu) (fecDecOp_failsOnlyWith_of_fits v (by omega) hv)
      (fecDecOp_append u v hu hv hlimit)
    refine ⟨x, y, z, hx, hy, hz, fun hsx hsy => ?_, hfail⟩
    obtain ⟨a, b, rfl, rfl, rfl⟩ := hok hsx hsy
    exact ⟨rfl, rfl, BitVec.ofNat_add _ _⟩

end Sys2Proof.Concatenation
end

section
/-!
PROOFS. The laws of GF(2^8) (41_reed_solomon.md R120 to R123): each is a law of the field of values, in which no two
bytes share a value.
-/

namespace Sys2Proof.Galois

open Sys2Proof Sys2Proof.Machine Sys2Proof.Safety Polynomial
open Sys2Proof.ReedSolomon (value_gexp)

/-! ### Ring laws -/

/-- Settles O26: multiplication of bytes is multiplication in the quotient by `GF_POLY`. -/
theorem gmulIsThePolynomialProductModuloGfPoly : Obligations.GmulIsThePolynomialProductModuloGfPoly := by
  intro a b
  rw [← AdjoinRoot.mk_eq_mk, map_toPoly_gmul _ AdjoinRoot.mk_self, map_mul]

theorem gmul_comm (a b : Byte) : gmul a b = gmul b a :=
  value_injective (by simp only [value_gmul, mul_comm])

theorem gmul_assoc (a b c : Byte) : gmul (gmul a b) c = gmul a (gmul b c) :=
  value_injective (by simp only [value_gmul, mul_assoc])

theorem gmul_gadd (a b c : Byte) : gmul a (gadd b c) = gadd (gmul a b) (gmul a c) :=
  value_injective (by simp only [value_gmul, value_gadd, mul_add])

@[simp] theorem gmul_one (a : Byte) : gmul a 1#8 = a := value_injective (by simp)

@[simp] theorem gmul_zero (a : Byte) : gmul a 0#8 = 0#8 := value_injective (by simp)

/-- Settles O27, by the laws of the field of values. -/
theorem galoisFieldRingLaws : Obligations.GaloisFieldRingLaws :=
  ⟨fun _ _ => rfl, gmul_comm, gmul_assoc, gmul_gadd, gmul_one, gmul_zero⟩

/-! ### Powers and logarithms -/

theorem gexp_ne_zero (i : Nat) : gexp i ≠ 0#8 := by
  rw [Ne, ← value_eq_zero_iff, value_gexp]
  exact pow_ne_zero i root_ne_zero

theorem gexp_inj {i j : Nat} (hi : i < 255) (hj : j < 255) : gexp i = gexp j ↔ i = j := by
  rw [← value_injective.eq_iff, value_gexp, value_gexp, root_pow_inj hi hj]

theorem gmul_gexp (i j : Nat) : gmul (gexp i) (gexp j) = gexp (i + j) :=
  value_injective (by rw [value_gmul, value_gexp, value_gexp, value_gexp, pow_add])

theorem gmul_alpha_gexp (i : Nat) : gmul Config.gfAlpha (gexp i) = gexp (i + 1) :=
  value_injective (by rw [value_gmul, value_alpha, value_gexp, value_gexp, pow_succ'])

/-- Every nonzero byte is a power of `α` (41_reed_solomon.md R122). -/
theorem exists_gexp_eq (a : Byte) (ha : a ≠ 0#8) : ∃ i, i < 255 ∧ gexp i = a := by
  classical
  have hmem : value a ∈ (Finset.univ : Finset Byte).image value := Finset.mem_image_of_mem _ (Finset.mem_univ a)
  rw [← image_value, Finset.mem_insert, value_eq_zero_iff, Finset.mem_image] at hmem
  obtain ⟨i, hi, hvalue⟩ := hmem.resolve_left ha
  exact ⟨i, Finset.mem_range.mp hi, value_injective ((value_gexp i).trans hvalue)⟩

/-- The search for a logarithm from `i` on finds the first power that is the byte, or there is none among the `n`
tried. -/
theorem glogFrom_gexp_cases (a : Byte) (n i : Nat) :
    (∃ j, glogFrom a n i (gexp i) = some j ∧ i ≤ j ∧ j < i + n ∧ gexp j = a)
      ∨ (glogFrom a n i (gexp i) = none ∧ ∀ j, i ≤ j → j < i + n → gexp j ≠ a) := by
  induction n generalizing i with
  | zero => exact .inr ⟨rfl, fun j hle hlt => by omega⟩
  | succ n ih =>
    by_cases h : gexp i = a
    · exact .inl ⟨i, by simp [glogFrom, h], le_rfl, by omega, h⟩
    · have hnext : glogFrom a (n + 1) i (gexp i) = glogFrom a n (i + 1) (gexp (i + 1)) := by
        rw [glogFrom, beq_eq_false_iff_ne.mpr h, gmul_alpha_gexp]
      rw [hnext]
      rcases ih (i + 1) with ⟨j, hj, hle, hlt, ha⟩ | ⟨hnone, hall⟩
      · exact .inl ⟨j, hj, by omega, by omega, ha⟩
      · refine .inr ⟨hnone, fun j hle hlt => ?_⟩
        rcases Nat.eq_or_lt_of_le hle with rfl | hlt'
        · exact h
        · exact hall j hlt' (by omega)

/-- What the logarithm answers (41_reed_solomon.md R122). -/
theorem glog_eq_ok_iff (a : Byte) (i : Nat) : glog a = .ok i ↔ i < 255 ∧ gexp i = a := by
  have hone : (1#8 : Byte) = gexp 0 := rfl
  rw [glog, hone]
  rcases glogFrom_gexp_cases a 255 0 with ⟨j, hj, -, hlt, hja⟩ | ⟨hnone, hall⟩
  · rw [hj]
    refine ⟨fun h => ?_, fun ⟨hi, hia⟩ => ?_⟩
    · cases h
      exact ⟨by omega, hja⟩
    · rw [(gexp_inj (by omega) hi).mp (hja.trans hia.symm)]
  · rw [hnone]
    exact ⟨nofun, fun ⟨hi, hia⟩ => absurd hia (hall i (by omega) (by omega))⟩

/-- Settles O28: the powers of `α` below 255 are told apart and are all nonzero bytes, so the search of `glog` ends. -/
theorem alphaIsPrimitiveAndLogsMultiply : Obligations.AlphaIsPrimitiveAndLogsMultiply := by
  refine ⟨?order, fun i hi => ⟨gexp_ne_zero i, (glog_eq_ok_iff _ i).mpr ⟨hi, rfl⟩⟩, fun a ha => ?log,
    fun a b i j hi hj => ?product, ?logZero⟩
  case order =>
    show gpow Config.gfAlpha 255 = 1#8
    exact value_injective (by rw [value_gpow, value_alpha, root_pow_255, value_one])
  case log =>
    obtain ⟨i, hi, hia⟩ := exists_gexp_eq a ha
    exact ⟨i, hi, (glog_eq_ok_iff a i).mpr ⟨hi, hia⟩, hia⟩
  case product =>
    obtain ⟨-, rfl⟩ := (glog_eq_ok_iff a i).mp hi
    obtain ⟨-, rfl⟩ := (glog_eq_ok_iff b j).mp hj
    exact gmul_gexp i j
  case logZero => decide +kernel

/-! ### Inverses and division -/

/-- The power 254 is the one inverse of a nonzero byte (41_reed_solomon.md R123). -/
theorem gmul_eq_one_iff (a b : Byte) (ha : a ≠ 0#8) : gmul a b = 1#8 ↔ b = gpow a 254 := by
  have hvalue : value a ≠ 0 := (value_eq_zero_iff a).not.mpr ha
  have hinv : value a * value a ^ 254 = 1 := by rw [← pow_succ', value_pow_255 a ha]
  rw [← value_injective.eq_iff, ← value_injective.eq_iff (a := b), value_gmul, value_gpow, value_one, ← hinv]
  exact mul_right_inj' hvalue

theorem ginv_of_ne_zero (a : Byte) (ha : a ≠ 0#8) : ginv a = .ok (gpow a 254) := by
  rw [ginv, beq_eq_false_iff_ne.mpr ha]

/-- Settles O29, by the powers of values in the field. -/
theorem powersInversesAndDivision : Obligations.PowersInversesAndDivision := by
  refine ⟨fun _ => rfl, fun a e he => ?power, fun e he => ?powerZero,
    fun a ha => ⟨ginv_of_ne_zero a ha, fun b => gmul_eq_one_iff a b ha⟩, fun a b i _ hi => ?division,
    by decide +kernel, by decide +kernel, rfl⟩
  case power =>
    obtain ⟨e, rfl⟩ := Nat.exists_eq_add_of_le' he
    rfl
  case powerZero =>
    rw [← value_eq_zero_iff, value_gpow, value_zero, zero_pow (by omega)]
  case division =>
    rw [gdiv, hi]
    rfl

end Sys2Proof.Galois
end

section
/-!
PROOFS. The two forms of the code RS(32,24) (41_reed_solomon.md R124 to R126): the value of a product at a byte is the
product of the values, so multiples of the generator are code words; and the generator being monic, some multiple of it
begins with any 24 bytes, so every code word is one.
-/

namespace Sys2Proof.ReedSolomon

open Sys2Proof Sys2Proof.Machine Sys2Proof.Safety Sys2Proof.Galois

theorem gexp_of_lt (j : Nat) (hj : j < 8) : gexp j = gpow 0x02#8 j := by
  rw [gexp, Nat.mod_eq_of_lt (by omega)]
  rfl

/-- Membership of the code as the rule states it (41_reed_solomon.md R126). -/
theorem isCodeword_iff_roots (c : ByteSeq) :
    isCodeword c = true ↔ c.length = 32 ∧ ∀ j, j < 8 → gevalHigh c (gpow 0x02#8 j) = 0x00#8 := by
  rw [isCodeword_iff]
  refine and_congr_right fun _ => forall₂_congr fun j hj => ?_
  rw [gexp_of_lt j hj]

/-- Settles O30, by `isCodeword_rsEncode` and `rsEncode_take`. -/
theorem rsEncodeIsSystematicAndFillsTheCode : Obligations.RsEncodeIsSystematicAndFillsTheCode := by
  refine ⟨fun d hd => ?_, fun c hc hroots => rsEncode_take c ((isCodeword_iff_roots c).mpr ⟨hc, hroots⟩)⟩
  obtain ⟨hlen, hroots⟩ := (isCodeword_iff_roots _).mp (isCodeword_rsEncode d hd)
  exact ⟨hlen, take_rsEncode d hd, hroots⟩

/-! ### Products -/

theorem polyMul_nil (g : ByteSeq) : polyMul [] g = [] := rfl

/-- A product by its leading factor: `a` times the generator, and the rest of the factor one place down. -/
theorem polyMul_cons (a : Byte) (q g : ByteSeq) (hg : g ≠ []) :
    polyMul (a :: q) g = xorInto (g.map (gmul a) ++ rep 0#8 q.length) (0#8 :: polyMul q g) := by
  cases q with
  | cons b q => rfl
  | nil =>
    cases g with
    | nil => exact absurd rfl hg
    | cons x g => simp [polyMul, rep, gadd]

theorem length_polyMul_cons (a : Byte) (q g : ByteSeq) (hg : g ≠ []) :
    (polyMul (a :: q) g).length = g.length + q.length := by
  rw [polyMul_cons a q g hg, length_xorInto]
  simp [rep]

theorem length_polyMul_le (q g : ByteSeq) (hg : g ≠ []) : (polyMul q g).length + 1 ≤ g.length + q.length := by
  cases q with
  | nil =>
    have := List.length_pos_iff.mpr hg
    simp [polyMul_nil]
    omega
  | cons a q => rw [length_polyMul_cons a q g hg, List.length_cons]; omega

theorem value_gevalHigh_map_gmul_left (a : Byte) (g : ByteSeq) (x : Byte) :
    value (gevalHigh (g.map (gmul a)) x) = value a * value (gevalHigh g x) := by
  have hswap : g.map (gmul a) = g.map fun b => gmul b a :=
    List.map_congr_left fun b _ => gmul_comm a b
  rw [hswap, value_gevalHigh_map_gmul, mul_comm]

theorem value_gevalHigh_rep_zero (n : Nat) (x : Byte) : value (gevalHigh (rep 0#8 n) x) = 0 := by
  simp [value_gevalHigh, rep]

/-- The value of a product at a byte is the product of the values (41_reed_solomon.md R124). -/
theorem value_gevalHigh_polyMul (q g : ByteSeq) (x : Byte) (hg : g ≠ []) :
    value (gevalHigh (polyMul q g) x) = value (gevalHigh q x) * value (gevalHigh g x) := by
  induction q with
  | nil => simp [polyMul_nil, gevalHigh]
  | cons a q ih =>
    have hle : (0#8 :: polyMul q g).length ≤ (g.map (gmul a) ++ rep 0#8 q.length).length := by
      have := length_polyMul_le q g hg
      simpa [rep] using this
    rw [polyMul_cons a q g hg, value_gevalHigh_xorInto _ _ _ hle, value_gevalHigh_append,
      value_gevalHigh_map_gmul_left, value_gevalHigh_rep_zero, value_gevalHigh_cons, value_gevalHigh_cons, ih]
    cases q with
    | nil => simp [gevalHigh, rep]
    | cons b q =>
      simp only [List.length_append, List.length_map, List.length_cons, length_polyMul_cons b q g hg, rep,
        List.length_replicate, value_zero]
      rw [Nat.add_assoc, Nat.sub_self]
      ring

/-! ### Multiples of the generator -/

theorem take_xorInto (n : Nat) (u v : ByteSeq) : (xorInto u v).take n = xorInto (u.take n) (v.take n) := by
  induction n generalizing u v with
  | zero => simp
  | succ n ih => cases u <;> cases v <;> simp [xorInto, ih]

/-- Some multiple of a monic polynomial begins with any bytes given: the factor is found from its leading coefficient
on. -/
theorem exists_polyMul_take (gs : ByteSeq) (n : Nat) (d : ByteSeq) (hd : d.length = n) :
    ∃ q : ByteSeq, q.length = n ∧ (polyMul q (1#8 :: gs)).take n = d := by
  induction n generalizing d with
  | zero => exact ⟨[], rfl, (List.length_eq_zero_iff.mp hd).symm⟩
  | succ n ih =>
    cases d with
    | nil => simp at hd
    | cons a d =>
      have hdn : d.length = n := by simpa using hd
      have hu : ((gs.map (gmul a) ++ rep 0#8 n).take n).length = d.length := by simp [rep, hdn]
      obtain ⟨q, hq, htake⟩ := ih (xorInto ((gs.map (gmul a) ++ rep 0#8 n).take n) d) (by rw [length_xorInto, hu, hdn])
      refine ⟨a :: q, by rw [List.length_cons, hq], ?_⟩
      rw [polyMul_cons a q _ (by simp), hq, List.map_cons, List.cons_append, xorInto_cons, List.take_succ_cons,
        take_xorInto, htake, xorInto_xorInto _ _ hu]
      simp [gadd]

/-- A multiple of the generator by 24 coefficients is a code word (41_reed_solomon.md R125, R126). -/
theorem isCodeword_polyMul (q : ByteSeq) (hq : q.length = 24) : isCodeword (polyMul q Config.rsGenerator) = true := by
  have hne : Config.rsGenerator ≠ [] := by decide
  refine (isCodeword_iff _).mpr ⟨?_, fun j hj => value_injective ?_⟩
  · cases q with
    | nil => simp at hq
    | cons a q =>
      rw [length_polyMul_cons a q _ hne, show Config.rsGenerator.length = 9 from rfl]
      rw [List.length_cons] at hq
      omega
  · rw [value_gevalHigh_polyMul q _ _ hne, gevalHigh_rsGenerator j hj, value_zero, mul_zero]

/-- The code words are the multiples of the generator: a code word and the multiple that begins with its data are too
near to differ (41_reed_solomon.md R126). -/
theorem isCodeword_iff_exists_polyMul (c : ByteSeq) :
    isCodeword c = true ↔ ∃ q : ByteSeq, q.length = 24 ∧ polyMul q Config.rsGenerator = c := by
  constructor
  · intro hc
    obtain ⟨q, hq, htake⟩ := exists_polyMul_take Config.rsGenerator.tail 24 (c.take 24)
      (by simp [length_of_isCodeword c hc])
    refine ⟨q, hq, ?_⟩
    rw [← rsEncode_take c hc, ← htake]
    exact (rsEncode_take _ (isCodeword_polyMul q hq)).symm
  · rintro ⟨q, hq, rfl⟩
    exact isCodeword_polyMul q hq

/-- Settles O31, by `isCodeword_iff_exists_polyMul`; the data and its parity are `rsEncode`. -/
theorem codeWordsAreTheMultiplesOfTheGenerator : Obligations.CodeWordsAreTheMultiplesOfTheGenerator :=
  ⟨isCodeword_iff_exists_polyMul, fun d hd =>
    ⟨length_rsParity d hd, (isCodeword_iff_exists_polyMul _).mp (isCodeword_rsEncode d hd)⟩⟩

end Sys2Proof.ReedSolomon
end
